-- ==== Sys2Proof/Word.lean ====
section
/-! DEFINITION. The two bit-vector types of the block: port words and bytes (spec 00_scope R9, R10). -/
namespace Sys2Proof

/-- A 32-bit port word (R10). -/
abbrev Word := BitVec 32

/-- A data byte, the only width the data path moves (R10, R54). -/
abbrev Byte := BitVec 8

end Sys2Proof
end

