-- ==== Sys2Proof/Syntax.lean ====
section
/-! DEFINITION. The commands of RBQ-UIM as syntax: one constructor per row of spec/opcode_table.json
(30_encoding R73), and the fields every command word is cut into (R71). -/
namespace Sys2Proof

/-- The value of field B: one of the two ring-buffer instances (10_state R20), or one of the two
interrupt sources (30_encoding R72). 0 = RX, 1 = TX. -/
inductive Buf where
  | rx
  | tx
deriving DecidableEq, Repr

/-- The five commands (R73). Every operand is held at the width the encoding gives it. -/
inductive Instr where
  /-- RB.RESV b: reserve a write slot (40_ring_buffer R96). -/
  | resv (b : Buf)
  /-- RB.STOR b, slot, data: store a byte into a slot (R97). -/
  | stor (b : Buf) (slot : BitVec 16) (data : Byte)
  /-- RB.PUSH b, data: reserve and store in one step (R98). -/
  | push (b : Buf) (data : Byte)
  /-- RB.READ b: read one byte (R99). -/
  | read (b : Buf)
  /-- IRQ.ARM src: set an interrupt-enable bit (41_isr_multiplexer R120). -/
  | arm (src : Buf)
deriving DecidableEq, Repr

/-- The five fields of a command word (R71). -/
structure Fields where
  /-- [31:28], the operation. -/
  op : BitVec 4
  /-- [27:25], reserved. -/
  rsv : BitVec 3
  /-- [24], buffer or interrupt-source select. -/
  b : BitVec 1
  /-- [23:8], slot index. -/
  slot : BitVec 16
  /-- [7:0], data byte. -/
  data : Byte
deriving DecidableEq, Repr

end Sys2Proof
end

