-- ==== Sys2Proof/WellFormed.lean ====
section
/-! DEFINITION. Which field values are legal encodings (30_encoding R74): one check per way a word can be
illegal. -/
namespace Sys2Proof

/-- OP is one of the five operations; 0x0 and 0x6 to 0xF are reserved (R73, R74). -/
def Fields.opKnown (f : Fields) : Bool :=
  decide (1 ≤ f.op.toNat ∧ f.op.toNat ≤ 5)

/-- RSV = 000 in every command (R71, R74). -/
def Fields.rsvZero (f : Fields) : Bool :=
  f.rsv == 0#3

/-- SLOT = 0 in every command but RB.STOR (R71, R74). -/
def Fields.slotZero (f : Fields) : Bool :=
  f.op == 2#4 || f.slot == 0#16

/-- DATA = 0 in every command but RB.STOR and RB.PUSH (R71, R74). -/
def Fields.dataZero (f : Fields) : Bool :=
  f.op == 2#4 || f.op == 3#4 || f.data == 0#8

/-- The fields are those of a legal command word (R74). -/
def Fields.wellFormed (f : Fields) : Bool :=
  f.opKnown && f.rsvZero && f.slotZero && f.dataZero

end Sys2Proof
end

