-- ==== Sys2Proof/Decode.lean ====
section
/-! DEFINITION. Decoding a command word and encoding a command (30_encoding R70 to R77), the opcode map as
rows (R73), and the byte order of a port word (20_memory R54). -/
namespace Sys2Proof

/-! ## The word as bytes -/

/-- A port word presented as four bytes: the byte at the lowest address holds bits [7:0] (R54). -/
def wordOfBytes (b0 b1 b2 b3 : Byte) : Word :=
  b3 ++ b2 ++ b1 ++ b0

/-- The four bytes of a port word, the lowest address first (R54). -/
def bytesOfWord (w : Word) : List Byte :=
  [w.extractLsb' 0 8, w.extractLsb' 8 8, w.extractLsb' 16 8, w.extractLsb' 24 8]

/-! ## Fields and operands -/

/-- The fields of a word, by the bit positions of R71. -/
def fieldsOf (w : Word) : Fields :=
  { op := w.extractLsb' 28 4
    rsv := w.extractLsb' 25 3
    b := w.extractLsb' 24 1
    slot := w.extractLsb' 8 16
    data := w.extractLsb' 0 8 }

/-- B = 0 selects RX, B = 1 selects TX (R72). -/
def bufOf (b : BitVec 1) : Buf :=
  if b = 1#1 then .tx else .rx

/-- The value of field B for a buffer or source (R20, R72). -/
def Buf.bit : Buf → BitVec 1
  | .rx => 0#1
  | .tx => 1#1

/-! ## Decode -/

/-- Why a word is no legal command (R74); each is recorded as E_ILLEGAL. -/
inductive DecodeError where
  /-- OP is 0x0 or 0x6 to 0xF. -/
  | reservedOp
  /-- RSV ≠ 0. -/
  | reservedBits
  /-- SLOT ≠ 0 in a command that requires it to be 0. -/
  | slotNotZero
  /-- DATA ≠ 0 in a command that requires it to be 0. -/
  | dataNotZero
  /-- Fewer than four bytes: no whole command word (R70). -/
  | truncated
deriving DecidableEq, Repr

/-- The command that legal fields stand for (R72, R73); none for a reserved OP. -/
def instrOf (f : Fields) : Option Instr :=
  match f.op.toNat with
  | 1 => some (.resv (bufOf f.b))
  | 2 => some (.stor (bufOf f.b) f.slot f.data)
  | 3 => some (.push (bufOf f.b) f.data)
  | 4 => some (.read (bufOf f.b))
  | 5 => some (.arm (bufOf f.b))
  | _ => none

/-- Decode the fields, refusing an illegal word by the name of what is wrong with it (R74). -/
def decodeFields (f : Fields) : Except DecodeError Instr :=
  if !f.rsvZero then .error .reservedBits
  else match instrOf f with
    | none => .error .reservedOp
    | some i =>
      if !f.slotZero then .error .slotNotZero
      else if !f.dataZero then .error .dataNotZero
      else .ok i

/-- Decode one command word, read as a whole (R70). -/
def decode (w : Word) : Except DecodeError Instr :=
  decodeFields (fieldsOf w)

/-- Decode a command from bytes: four of them, little-endian (R54), with the rest of the list. -/
def decodeBytes : List Byte → Except DecodeError (Instr × List Byte)
  | b0 :: b1 :: b2 :: b3 :: rest =>
    match decode (wordOfBytes b0 b1 b2 b3) with
    | .ok i => .ok (i, rest)
    | .error e => .error e
  | _ => .error .truncated

/-- The word of the lowest `nbits` bits of `w`, the bits above zero. -/
def tableWord (nbits w : Nat) : Word :=
  BitVec.ofNat 32 (w % 2 ^ nbits)

/-- What the decoder reads from the instruction whose bits are `w`, as spec/opcode_table.json numbers
them. -/
def decodeTableWord (nbits w : Nat) : Option Instr :=
  match decodeBytes (bytesOfWord (tableWord nbits w)) with
  | .ok (i, _) => some i
  | .error _ => none

/-! ## Encode -/

/-- The fields of a command, the inverse of `instrOf` (R76); RSV = 0. -/
def Instr.fields : Instr → Fields
  | .resv b => ⟨1#4, 0#3, b.bit, 0#16, 0#8⟩
  | .stor b slot data => ⟨2#4, 0#3, b.bit, slot, data⟩
  | .push b data => ⟨3#4, 0#3, b.bit, 0#16, data⟩
  | .read b => ⟨4#4, 0#3, b.bit, 0#16, 0#8⟩
  | .arm src => ⟨5#4, 0#3, src.bit, 0#16, 0#8⟩

/-- `enc(OP, B, SLOT, DATA)` of R76, with RSV in its place. -/
def wordOfFields (f : Fields) : Word :=
  (f.op.setWidth 32 <<< 28) ||| (f.rsv.setWidth 32 <<< 25) ||| (f.b.setWidth 32 <<< 24) |||
    (f.slot.setWidth 32 <<< 8) ||| f.data.setWidth 32

/-- The command word of a command (R76). -/
def encode (i : Instr) : Word :=
  wordOfFields i.fields

/-- The command is one the encoding can carry. -/
def Instr.wellFormed (i : Instr) : Bool :=
  i.fields.wellFormed

/-! ## The opcode map as rows -/

/-- A row of the opcode map (R73). -/
structure Row where
  mnemonic : String
  pattern : Word
  mask : Word
deriving DecidableEq, Repr

/-- The five rows of R73, in its order. -/
def opcodeMap : List Row :=
  [ ⟨"RB.RESV", 0x10000000#32, 0xFEFFFFFF#32⟩,
    ⟨"RB.STOR", 0x20000000#32, 0xFE000000#32⟩,
    ⟨"RB.PUSH", 0x30000000#32, 0xFEFFFF00#32⟩,
    ⟨"RB.READ", 0x40000000#32, 0xFEFFFFFF#32⟩,
    ⟨"IRQ.ARM", 0x50000000#32, 0xFEFFFFFF#32⟩ ]

/-- A word selects a row when (w AND mask) = match (R73). -/
def Row.selects (r : Row) (w : Word) : Bool :=
  (w &&& r.mask) == r.pattern

/-- The mnemonic of a command, as the opcode map spells it (R73). -/
def Instr.mnemonic : Instr → String
  | .resv _ => "RB.RESV"
  | .stor _ _ _ => "RB.STOR"
  | .push _ _ => "RB.PUSH"
  | .read _ => "RB.READ"
  | .arm _ => "IRQ.ARM"

end Sys2Proof
end

