-- ==== Sys2Proof/Config.lean ====
section
/-! DEFINITION. What is fixed for one block and never changes during a run (00_scope R8), and the free
values: constants without a body, of which no proof can know a value. -/
namespace Sys2Proof

/-- The parameters the model takes (00_scope R8). A state carries them and no step changes them
(entry 1, DESIGN CHOICE, safe). -/
structure Params where
  /-- C, the slots of each ring buffer. -/
  cap : Nat
  /-- RXDEPTH, the depth of the UART hardware receive FIFO in bytes. -/
  rxDepth : Nat
  /-- TXDEPTH, the depth of the UART hardware transmit FIFO in bytes. -/
  txDepth : Nat
  /-- BLOCK_BASE, the address of the CMD register. -/
  blockBase : Nat
deriving DecidableEq, Repr

/-- The constraints of R8 (D3, D23). That BLOCK_BASE is a multiple of 4 is DEDUCED from R52 and
R55 (b) (entry 3, safe). -/
abbrev Params.wf (p : Params) : Prop :=
  2 ≤ p.cap ∧ p.cap ≤ 65536 ∧ 1 ≤ p.rxDepth ∧ 1 ≤ p.txDepth ∧ p.blockBase % 4 = 0

/-- FREE VALUE (10_state R41, 93 X2; entry 4, safe): the byte slot `slot` of ring `b` holds after the
`n`-th reset and before anything is stored there. -/
opaque Config.storeDraw (n : Nat) (b : Buf) (slot : Nat) : Byte

/-- FREE VALUE (10_state R35, R41, 93 X3; entry 5, safe): ITMP after the `n`-th reset. -/
opaque Config.itmpDraw (n : Nat) : Byte

/-- OPEN (R8, D23; entry 2, safe): RXDEPTH less one, so that RXDEPTH ≥ 1. -/
opaque Config.rxDepthLessOne : Nat

/-- OPEN (R8, D23; entry 2, safe): TXDEPTH less one, so that TXDEPTH ≥ 1. -/
opaque Config.txDepthLessOne : Nat

/-- OPEN (R8, D25; entries 2 and 3, safe): BLOCK_BASE divided by 4. -/
opaque Config.blockBaseWord : Nat

/-- The parameters the machine comes out of reset with: the spec's default C and the OPEN values
(entry 2). -/
def Params.default : Params :=
  { cap := 1024
    rxDepth := Config.rxDepthLessOne + 1
    txDepth := Config.txDepthLessOne + 1
    blockBase := 4 * Config.blockBaseWord }

end Sys2Proof
end

