-- ==== Sys2Proof/Machine/State.lean ====
section
/-! DEFINITION. The machine's state: everything 10_state names, the environment at its interface (R37 to
R40), the task's program (R32), and which agent moves next; the reasons a step can stop; the state after
reset (R41, R162). -/
namespace Sys2Proof.Machine

/-- PH, the phase of the ISR sequencer (10_state R33). -/
inductive Phase where
  | idle
  | rxAck
  | rxDrain
  | rxDelim
  | txAck
  | txEmpty
  | txFill
  | txMask
deriving DecidableEq, Repr

/-- The steps of the device agent U (60_exceptions R143). -/
inductive DeviceStep where
  /-- U.Arrive(v): a byte of the line enters the receive FIFO. -/
  | arrive (v : Byte)
  /-- U.Depart: the head of the transmit FIFO leaves on the line. -/
  | depart
  /-- U.RaiseRx: the RX source becomes pending. -/
  | raiseRx
  /-- U.RaiseTx: the TX source becomes pending. -/
  | raiseTx
deriving DecidableEq, Repr

/-- Who moves: the three agents of 00_scope R7, and the platform, which triggers the block's reset
(70_reset R160; entry 15). -/
inductive Agent where
  /-- T, the task context. -/
  | task
  /-- I, the ISR sequencer. -/
  | isr
  /-- U, the UART and interrupt controller, and which of its steps. -/
  | device (step : DeviceStep)
  /-- The platform resets the block. -/
  | platformReset
deriving DecidableEq, Repr

/-- One step of the task's program (R32, R79, R178; entry 9). -/
inductive TaskOp where
  /-- Write a command word to CMD (R58). -/
  | cmd (w : Word)
  /-- `rb.stor tx, RESP[15:0], data`: the command word formed at run time from RESP (R79), read when the item
  is executed (entry 22). -/
  | storAtResp (data : Byte)
  /-- RB.READ rx repeated until `n` reads have returned RESP[8] = 1, one read at least (R175; the loops
  of 95_test_vectors P2 and P6). -/
  | pollRead (n : Nat)
  /-- A read of `nbytes` bytes at a bus address (R52, R55). -/
  | busRead (addr nbytes : Nat)
  /-- A write of the given bytes, the lowest address first, at a bus address (R52, R54, R55). -/
  | busWrite (addr : Nat) (bytes : List Byte)
deriving DecidableEq, Repr

/-- A ring-buffer instance (10_state R20 to R23). -/
structure Ring where
  /-- STORE: the slots whose content differs from what the reset draw left there, as slot index and byte,
  by rising index (R22; entry 4). -/
  store : List Host.Cell
  /-- RC, the read cursor (R23; a natural number by R10, entry 11). -/
  rc : Nat
  /-- WC, the write cursor (R23). -/
  wc : Nat
deriving DecidableEq, Repr

/-- The state. Fields marked (model) are the model's own, not the spec's. -/
structure State where
  /-- The parameters (R8); no step changes them (entry 1). -/
  params : Params
  /-- The RX ring (R20). -/
  rx : Ring
  /-- The TX ring (R20). -/
  tx : Ring
  /-- (model) Which reset this is; it selects the free draws of storage and ITMP (entries 4 and 5). -/
  resetNo : Nat
  /-- PH (R33). -/
  ph : Phase
  /-- LAT_RX (R34). -/
  latRx : Bool
  /-- LAT_TX (R34). -/
  latTx : Bool
  /-- ITMP (R35). -/
  itmp : Byte
  /-- RESP (R36). -/
  resp : Word
  /-- FAULT (R36, R132). -/
  faultReg : Word
  /-- FCMD (R36, R132). -/
  fcmd : Word
  /-- RXIE, the mask register's enable bit of the RX source (R37). -/
  rxie : Bool
  /-- TXIE, the mask register's enable bit of the TX source (R37). -/
  txie : Bool
  /-- P_RX, the raw pending bit of the RX source (R37). -/
  pRx : Bool
  /-- P_TX, the raw pending bit of the TX source (R37). -/
  pTx : Bool
  /-- RXF, the hardware receive FIFO, oldest first (R38). -/
  rxf : List Byte
  /-- TXF, the hardware transmit FIFO, oldest first (R38). -/
  txf : List Byte
  /-- WIRE_IN, an observation log (R40). -/
  wireIn : List Byte
  /-- WIRE_OUT, an observation log (R40). -/
  wireOut : List Byte
  /-- The rest of the task's program (R32; entry 9). -/
  prog : List TaskOp
  /-- (model) What the last port-register read returned to the task (R178; entry 14). -/
  rdata : Word
  /-- (model) Who moves next, in order: any list, so that every interleaving of R59 is a run (entry 6). -/
  sched : List Agent
deriving DecidableEq, Repr

/-- Why the machine stops. -/
inductive Fault where
  /-- A primitive was asked for a slot above END. Raised by memRead and memWrite. Safe: 20_memory R51 says
  no such access exists, and no state with its cursors in range raises it (entry 12). -/
  | slotOutsideStorage (b : Buf) (slot : Nat)
deriving DecidableEq, Repr

/-- Why a step has no meaning. -/
inductive Refusal where
  /-- An instruction without a meaning. Raised by exec's refused arms only; safe. -/
  | notModelled (mnemonic : String)
  /-- A port access that is not 32 bits wide at an address ≡ 0 mod 4. Raised by the task's bus accesses;
  safe: "The model refuses it and takes no step" (20_memory R55 (c), 93 X11; entry 13). -/
  | portAccessShape (addr nbytes : Nat)
  /-- A bus access outside the block's 16-byte window. Raised by the task's bus accesses; safe: "is not
  the block's" (R52; entry 13). -/
  | notThisBlock (addr : Nat)
  /-- U.Arrive chosen while RXF is full. Raised by the device's arrive; safe: such a byte "is outside the
  model" (60_exceptions R143, 93 X12; entry 8). -/
  | arriveAtFullFifo
deriving DecidableEq, Repr

/-- The outcome of a step of this machine. -/
abbrev Outcome := Host.Outcome State Fault Refusal

/-- A ring after reset: both cursors at BEGIN = 0, every slot at its draw (R41). -/
def Ring.reset : Ring :=
  { store := [], rc := 0, wc := 0 }

/-- The state right after reset under CleanLaunch (R41, R162; entry 20), for any parameters (R8), with
the program and the schedule the outside places (entry 10). -/
def State.launch (p : Params) (prog : List TaskOp) (sched : List Agent) : State :=
  { params := p
    rx := Ring.reset
    tx := Ring.reset
    resetNo := 0
    ph := .idle
    latRx := false
    latTx := false
    itmp := Config.itmpDraw 0
    resp := 0#32
    faultReg := 0#32
    fcmd := 0#32
    rxie := false
    txie := false
    pRx := false
    pTx := false
    rxf := []
    txf := []
    wireIn := []
    wireOut := []
    prog := prog
    rdata := 0#32
    sched := sched }

/-- The machine right after reset: the launch state of the default parameters, with nothing placed. -/
def State.reset : State :=
  State.launch Params.default [] []

end Sys2Proof.Machine
end

