-- ==== Sys2Proof/Machine/Operands.lean ====
section
/-! DEFINITION. The constants of a ring (00_scope R8, 10_state R21), the operand forms of the commands
(30_encoding R72), the layouts of RESP and FAULT (10_state R36, 60_exceptions R130, R132), the codes of
the phases (R33), and the port-register map (20_memory R52). -/
namespace Sys2Proof

/-- BEGIN, the first slot index (R8, R21). -/
def Params.first (_ : Params) : Nat := 0

/-- END, the last slot index and the wrap trigger (R8, R21). -/
def Params.last (p : Params) : Nat := p.cap - 1

/-- W = ceil(log2 C), the width of a cursor in bits (R8). -/
def Params.cursorBits (p : Params) : Nat := Nat.log2 (p.cap - 1) + 1

/-- DELIM, the frame delimiter, the tab byte (R8). -/
def delim : Byte := 0x09#8

end Sys2Proof

namespace Sys2Proof.Machine

/-- Succ(i): the slot after `i`, wrapping after END (R28). -/
def succ (p : Params) (i : Nat) : Nat :=
  if i = p.last then p.first else i + 1

/-- The slot index an RB.STOR names: unsigned, not scaled, not offset (R72). -/
def slotIndex (slot : BitVec 16) : Nat :=
  slot.toNat

/-- The slot index in RESP[15:0], as `rb.send` takes it (R36, R79). -/
def respSlot (resp : Word) : BitVec 16 :=
  resp.extractLsb' 0 16

/-- RESP[8], the has-data bit of RB.READ (R36, R99). -/
def respHasData (resp : Word) : Bool :=
  resp.getLsbD 8

/-- RESP after RB.RESV: bits [15:0] the slot, the rest 0 (R36, R96). -/
def respOfSlot (slot : Nat) : Word :=
  (BitVec.ofNat 16 slot).setWidth 32

/-- RESP after RB.READ: `zext_32` of has-data over the byte (R36, R99). -/
def respOfRead (hasData : Bool) (x : Byte) : Word :=
  (BitVec.ofBool hasData ++ x).setWidth 32

/-- The fault codes (R130). -/
inductive FaultCode where
  /-- No row of the opcode map matches. -/
  | eIllegal
  /-- The task acts as producer of RX or consumer of TX. -/
  | eOwner
  /-- RB.STOR with SLOT > END. -/
  | eSlot
deriving DecidableEq, Repr

/-- CODE of a fault (R130). -/
def FaultCode.code : FaultCode → BitVec 4
  | .eIllegal => 1#4
  | .eOwner => 2#4
  | .eSlot => 3#4

/-- FAULT with V = 1 and the code, the 27 bits between them 0 (R132). -/
def faultWord (c : FaultCode) : Word :=
  1#1 ++ 0#27 ++ c.code

/-- FAULT.V, bit 31 (R36). -/
def faultRecorded (faultReg : Word) : Bool :=
  faultReg.getLsbD 31

/-- The 3-bit code of a phase (R33). -/
def Phase.code : Phase → BitVec 3
  | .idle => 0#3
  | .rxAck => 1#3
  | .rxDrain => 2#3
  | .rxDelim => 3#3
  | .txAck => 4#3
  | .txEmpty => 5#3
  | .txFill => 6#3
  | .txMask => 7#3

/-- The four port registers (R36, R52). -/
inductive PortReg where
  | cmd
  | resp
  | fault
  | fcmd
deriving DecidableEq, Repr

/-- The offset of a port register from BLOCK_BASE (R52). -/
def PortReg.offset : PortReg → Nat
  | .cmd => 0x0
  | .resp => 0x4
  | .fault => 0x8
  | .fcmd => 0xC

/-- The port register at an address the block decodes (R52); none elsewhere in the window, that is at an
address that is not ≡ 0 mod 4 (R55). -/
def portRegAt (p : Params) (addr : Nat) : Option PortReg :=
  if addr = p.blockBase + PortReg.offset .cmd then some .cmd
  else if addr = p.blockBase + PortReg.offset .resp then some .resp
  else if addr = p.blockBase + PortReg.offset .fault then some .fault
  else if addr = p.blockBase + PortReg.offset .fcmd then some .fcmd
  else none

/-- The 16-byte window the block decodes (R52, R66). -/
def inWindow (p : Params) (addr : Nat) : Bool :=
  decide (p.blockBase ≤ addr ∧ addr < p.blockBase + 0x10)

end Sys2Proof.Machine
end

