-- ==== Sys2Proof/Machine/Flags.lean ====
section
/-! DEFINITION. Every predicate and status bit the spec computes from the state and stores nowhere:
the ring predicates of 10_state R28, the interrupt status and line of R37 and R39, the UART status bits
of R38. -/
namespace Sys2Proof.Machine

/-- Empty(b) (R28). -/
def Ring.isEmpty (r : Ring) : Bool :=
  r.rc == r.wc

/-- Next(b) (R28). -/
def Ring.next (p : Params) (r : Ring) : Nat :=
  succ p r.wc

/-- AtEndWrap(b) (R28). -/
def Ring.atEndWrap (p : Params) (r : Ring) : Bool :=
  r.wc == p.last

/-- Full(b): the only case where Reserve does not advance (R28). -/
def Ring.isFull (p : Params) (r : Ring) : Bool :=
  !r.atEndWrap p && r.next p == r.rc

/-- Visible(b) = (WC − RC) mod C over the integers: the bytes a consumer can still read (R28, R95). -/
def Ring.visible (p : Params) (r : Ring) : Nat :=
  (((r.wc : Int) - (r.rc : Int)) % (p.cap : Int)).toNat

/-- STATUS.RX = P_RX ∧ RXIE (R37). -/
def statusRx (s : State) : Bool :=
  s.pRx && s.rxie

/-- STATUS.TX = P_TX ∧ TXIE (R37). -/
def statusTx (s : State) : Bool :=
  s.pTx && s.txie

/-- IRQ, the interrupt line: level-sensitive, the OR of the two masked pending bits (R39). -/
def irq (s : State) : Bool :=
  statusRx s || statusTx s

/-- DR, "data ready": RXF ≠ [] (R38). -/
def dr (s : State) : Bool :=
  !s.rxf.isEmpty

/-- TXFF, "transmit FIFO full": |TXF| = TXDEPTH (R38). -/
def txff (s : State) : Bool :=
  s.txf.length == s.params.txDepth

/-- TXFE, "transmit FIFO empty": TXF = [] (R38). -/
def txfe (s : State) : Bool :=
  s.txf.isEmpty

end Sys2Proof.Machine
end

