-- ==== Sys2Proof/Machine/Memory.lean ====
section
/-! DEFINITION. Sparse bytes in one canonical form: the storage arrays of 10_state R22 as lists of slot
index and byte. What an unlisted slot reads as is a function given to every operation. -/
namespace Sys2Proof.Machine

/-- The canonical form: addresses strictly rising, no entry equal to what its address reads as when
unlisted. -/
abbrev Memory.wf (unlisted : Nat → Byte) (m : List Host.Cell) : Prop :=
  m.Pairwise (fun c d => c.1 < d.1) ∧ ∀ c ∈ m, c.2 ≠ unlisted c.1

/-- The byte at an address. -/
def Memory.read (unlisted : Nat → Byte) (m : List Host.Cell) (a : Nat) : Byte :=
  (m.lookup a).getD (unlisted a)

/-- List the byte `v` at address `a`, in its place. -/
def Memory.put (a : Nat) (v : Byte) : List Host.Cell → List Host.Cell
  | [] => [(a, v)]
  | c :: rest =>
    if a < c.1 then (a, v) :: c :: rest
    else if a = c.1 then (a, v) :: rest
    else c :: Memory.put a v rest

/-- Take address `a` out of the list. -/
def Memory.drop (a : Nat) (m : List Host.Cell) : List Host.Cell :=
  m.filter (fun c => c.1 != a)

/-- Write the byte `v` at address `a`, keeping the canonical form. -/
def Memory.write (unlisted : Nat → Byte) (m : List Host.Cell) (a : Nat) (v : Byte) : List Host.Cell :=
  if v = unlisted a then Memory.drop a m else Memory.put a v m

end Sys2Proof.Machine
end

