-- ==== Sys2Proof/Machine/Ops.lean ====
section
/-! DEFINITION. The shared operations: slot accesses (00_scope R10), the ring primitives (40_ring_buffer
R91 to R94), recording a fault (60_exceptions R132), entering and leaving the ISR (41_isr R111, R119), the
device accesses (R10, 10_state R37, R38), and the block's reset (70_reset R160). -/
namespace Sys2Proof.Machine

/-! ## Fields by name -/

/-- The ring of instance `b` (R20). -/
def State.ring (s : State) : Buf → Ring
  | .rx => s.rx
  | .tx => s.tx

/-- The state with the ring of instance `b` replaced. -/
def State.setRing (s : State) (b : Buf) (r : Ring) : State :=
  match b with
  | .rx => { s with rx := r }
  | .tx => { s with tx := r }

/-- RESP <- w. -/
def State.setResp (s : State) (w : Word) : State :=
  { s with resp := w }

/-- PH <- phase. -/
def State.setPh (s : State) (ph : Phase) : State :=
  { s with ph := ph }

/-- ITMP <- x. -/
def State.setItmp (s : State) (x : Byte) : State :=
  { s with itmp := x }

/-! ## Slots -/

/-- What a slot nothing has been stored in since the reset reads as: that reset's draw for it (R41). -/
def State.unlisted (s : State) (b : Buf) : Nat → Byte :=
  Config.storeDraw s.resetNo b

/-- The content of slot `i` of ring `b`: STORE[b][i]. -/
def State.slot (s : State) (b : Buf) (i : Nat) : Byte :=
  Memory.read (s.unlisted b) (s.ring b).store i

/-- MemRead(b, i, 1) (R10). A slot above END does not exist (R51; entry 12). -/
def memRead (b : Buf) (i : Nat) (s : State) : Except Fault Byte :=
  if i ≤ s.params.last then .ok (s.slot b i) else .error (.slotOutsideStorage b i)

/-- STORE[b][i] <- v. -/
def State.writeSlot (s : State) (b : Buf) (i : Nat) (v : Byte) : State :=
  s.setRing b { s.ring b with store := Memory.write (s.unlisted b) (s.ring b).store i v }

/-- MemWrite(b, i, 1, v) (R10). A slot above END does not exist (R51; entry 12). -/
def memWrite (b : Buf) (i : Nat) (v : Byte) (s : State) : Except Fault State :=
  if i ≤ s.params.last then .ok (s.writeSlot b i v) else .error (.slotOutsideStorage b i)

/-! ## Primitives -/

/-- Where Reserve leaves WC: BEGIN at END, whatever RC is; else the next slot unless that is RC (R91). -/
def Ring.wcAfterReserve (p : Params) (r : Ring) : Nat :=
  if r.wc = p.last then p.first
  else if r.next p ≠ r.rc then r.next p
  else r.wc

/-- Reserve(b): the slot WC was at before the update, and the state after it (R91). -/
def reserve (b : Buf) (s : State) : Nat × State :=
  ((s.ring b).wc, s.setRing b { s.ring b with wc := (s.ring b).wcAfterReserve s.params })

/-- Store(b, i, v) (R92). -/
def store (b : Buf) (i : Nat) (v : Byte) (s : State) : Except Fault State :=
  memWrite b i v s

/-- Read(b): has-data, the byte at the read cursor in either case, and the state after it (R93). -/
def readByte (b : Buf) (s : State) : Except Fault (Bool × Byte × State) :=
  let rc := (s.ring b).rc
  match memRead b rc s with
  | .error f => .error f
  | .ok x =>
    if (s.ring b).isEmpty then .ok (false, x, s)
    else
      match memWrite b rc 0x00#8 s with
      | .error f => .error f
      | .ok t => .ok (true, x, t.setRing b { t.ring b with rc := succ s.params rc })

/-- Push(b, v): Reserve, then Store to the slot it returned (R94). -/
def push (b : Buf) (v : Byte) (s : State) : Except Fault State :=
  store b (reserve b s).1 v (reserve b s).2

/-- The outcome of a step that ends in `after` of the state a primitive left. -/
def finish (after : State → State) : Except Fault State → Outcome
  | .ok t => .next (after t)
  | .error f => .fault f

/-! ## Faults of the command port -/

/-- `raise Fault(code, w)`: the first fault since reset is kept in FAULT and FCMD, RESP <- 0, and nothing
else changes (R132). -/
def raiseFault (c : FaultCode) (w : Word) (s : State) : State :=
  if faultRecorded s.faultReg then s.setResp 0#32
  else { s with faultReg := faultWord c, fcmd := w, resp := 0#32 }

/-! ## Device accesses -/

/-- Dev.ReadStatus: STATUS.RX and STATUS.TX (R37). -/
def devReadStatus (s : State) : Bool × Bool :=
  (statusRx s, statusTx s)

/-- Dev.PopRx: head(RXF) and RXF <- tail(RXF); none when RXF = [] (R38). -/
def devPopRx (s : State) : Option (Byte × State) :=
  match s.rxf with
  | [] => none
  | v :: rest => some (v, { s with rxf := rest })

/-- Dev.PushTx(v): TXF <- TXF ++ [v] (R38). -/
def devPushTx (v : Byte) (s : State) : State :=
  { s with txf := s.txf ++ [v] }

/-- Dev.Ack(src): clears that source's pending bit and nothing else (R37). -/
def devAck (src : Buf) (s : State) : State :=
  match src with
  | .rx => { s with pRx := false }
  | .tx => { s with pTx := false }

/-- Dev.SetMask(src): sets that source's enable bit (R120). -/
def devSetMask (src : Buf) (s : State) : State :=
  match src with
  | .rx => { s with rxie := true }
  | .tx => { s with txie := true }

/-- Dev.ClearMask(src): clears that source's enable bit (R118). -/
def devClearMask (src : Buf) (s : State) : State :=
  match src with
  | .rx => { s with rxie := false }
  | .tx => { s with txie := false }

/-! ## The ISR's entry and return -/

/-- Entry: the status is latched once, and control goes to RX_ACK, or to TX_ACK when LAT_RX = 0 (R111).
It saves nothing (R139). -/
def takeInterrupt (s : State) : State :=
  { s with
    latRx := (devReadStatus s).1
    latTx := (devReadStatus s).2
    ph := if (devReadStatus s).1 then .rxAck else .txAck }

/-- Return: PH <- IDLE, and nothing is restored (R119, R141). -/
def returnFromIsr (s : State) : State :=
  s.setPh .idle

/-! ## Reset -/

/-- The platform resets the block: every piece of block state to its value in R41, storage and ITMP drawn
afresh (R160). The environment's state, the logs and the task's own state stay (R136; entry 15). -/
def blockReset (s : State) : State :=
  { s with
    rx := Ring.reset
    tx := Ring.reset
    resetNo := s.resetNo + 1
    ph := .idle
    latRx := false
    latTx := false
    itmp := Config.itmpDraw (s.resetNo + 1)
    resp := 0#32
    faultReg := 0#32
    fcmd := 0#32 }

end Sys2Proof.Machine
end

