-- ==== Sys2Proof/Machine/Device.lean ====
section
/-! DEFINITION. The steps of the device agent U (60_exceptions R143). -/
namespace Sys2Proof.Machine

/-- U.Arrive(v), enabled when |RXF| < RXDEPTH (R143). A byte that meets a full FIFO is outside the model
(93 X12; entry 8). -/
def deviceArrive (v : Byte) (s : State) : Outcome :=
  if s.rxf.length < s.params.rxDepth then
    .next { s with rxf := s.rxf ++ [v], wireIn := s.wireIn ++ [v] }
  else .refused .arriveAtFullFifo

/-- U.Depart, enabled when TXF ≠ [] (R143); U has no such step otherwise, and nothing changes
(entry 7). -/
def deviceDepart (s : State) : Outcome :=
  match s.txf with
  | [] => .next s
  | v :: rest => .next { s with txf := rest, wireOut := s.wireOut ++ [v] }

/-- U.RaiseRx, always enabled (R143). -/
def deviceRaiseRx (s : State) : Outcome :=
  .next { s with pRx := true }

/-- U.RaiseTx, always enabled (R143). -/
def deviceRaiseTx (s : State) : Outcome :=
  .next { s with pTx := true }

/-- U's step. -/
def deviceStep (d : DeviceStep) (s : State) : Outcome :=
  match d with
  | .arrive v => deviceArrive v s
  | .depart => deviceDepart s
  | .raiseRx => deviceRaiseRx s
  | .raiseTx => deviceRaiseTx s

end Sys2Proof.Machine
end

