-- ==== Sys2Proof/Machine/Isr.lean ====
section
/-! DEFINITION. The steps of the ISR sequencer I: one per phase (41_isr_multiplexer R110 to R119). -/
namespace Sys2Proof.Machine

/-- IDLE: Entry when IRQ = 1 (R111); I has no step otherwise, and nothing changes (entry 7). -/
def isrIdle (s : State) : Outcome :=
  if irq s then .next (takeInterrupt s) else .next s

/-- RX_ACK (R112). -/
def isrRxAck (s : State) : Outcome :=
  .next ((devAck .rx s).setPh .rxDrain)

/-- RX_DRAIN (R113): one byte of RXF into the RX ring while DR = 1. -/
def isrRxDrain (s : State) : Outcome :=
  match devPopRx s with
  | some (v, t) => finish (fun u => u.setPh .rxDrain) (push .rx v t)
  | none => .next (s.setPh .rxDelim)

/-- RX_DELIM (R114): the frame delimiter into the RX ring; on to the TX half when LAT_TX = 1, else
return. -/
def isrRxDelim (s : State) : Outcome :=
  finish (fun u => if u.latTx then u.setPh .txAck else returnFromIsr u) (push .rx delim s)

/-- TX_ACK (R115). -/
def isrTxAck (s : State) : Outcome :=
  .next ((devAck .tx s).setPh .txEmpty)

/-- TX_EMPTY (R116): on only when TXFE = 1. -/
def isrTxEmpty (s : State) : Outcome :=
  if txfe s then .next (s.setPh .txFill) else .next (returnFromIsr s)

/-- TX_FILL (R117): TXFF is tested first; then one byte of the TX ring into TXF, or on to TX_MASK when the
ring has none. The byte read goes to ITMP in either case. -/
def isrTxFill (s : State) : Outcome :=
  if txff s then .next (returnFromIsr s)
  else
    match readByte .tx s with
    | .error f => .fault f
    | .ok (true, x, t) => .next ((devPushTx x (t.setItmp x)).setPh .txFill)
    | .ok (false, x, t) => .next ((t.setItmp x).setPh .txMask)

/-- TX_MASK (R118): the TX source is masked, and the ISR returns. -/
def isrTxMask (s : State) : Outcome :=
  .next (returnFromIsr (devClearMask .tx s))

/-- I's step, by phase (R110). -/
def isrStep (s : State) : Outcome :=
  match s.ph with
  | .idle => isrIdle s
  | .rxAck => isrRxAck s
  | .rxDrain => isrRxDrain s
  | .rxDelim => isrRxDelim s
  | .txAck => isrTxAck s
  | .txEmpty => isrTxEmpty s
  | .txFill => isrTxFill s
  | .txMask => isrTxMask s

end Sys2Proof.Machine
end

