-- ==== Sys2Proof/Machine/IrqCommands.lean ====
section
/-! DEFINITION. The interrupt-mask command IRQ.ARM (41_isr_multiplexer R120). -/
namespace Sys2Proof.Machine

/-- IRQ.ARM (R120): Dev.SetMask(src), RESP <- 0; the task may arm either source. -/
def execArm (src : Buf) (s : State) : Outcome :=
  .next ((devSetMask src s).setResp 0#32)

end Sys2Proof.Machine
end

