-- ==== Sys2Proof/Machine/RingCommands.lean ====
section
/-! DEFINITION. The ring-buffer commands RB.RESV, RB.STOR, RB.PUSH and RB.READ (40_ring_buffer R96 to R99),
with the checks of 30_encoding R77 that follow decoding. The word a fault records is the command's own
encoding (entry 16). -/
namespace Sys2Proof.Machine

/-- RB.RESV (R96): E_OWNER unless B = TX; RESP <- zext_32(Reserve(TX)). -/
def execResv (b : Buf) (s : State) : Outcome :=
  if b ≠ .tx then .next (raiseFault .eOwner (encode (.resv b)) s)
  else .next ((reserve .tx s).2.setResp (respOfSlot (reserve .tx s).1))

/-- RB.STOR (R97): E_OWNER unless B = TX; E_SLOT when SLOT > END; Store(TX, SLOT, DATA), RESP <- 0. -/
def execStor (b : Buf) (slot : BitVec 16) (data : Byte) (s : State) : Outcome :=
  if b ≠ .tx then .next (raiseFault .eOwner (encode (.stor b slot data)) s)
  else if s.params.last < slotIndex slot then .next (raiseFault .eSlot (encode (.stor b slot data)) s)
  else finish (fun t => t.setResp 0#32) (store .tx (slotIndex slot) data s)

/-- RB.PUSH (R98): E_OWNER unless B = TX; Push(TX, DATA), RESP <- 0. -/
def execPush (b : Buf) (data : Byte) (s : State) : Outcome :=
  if b ≠ .tx then .next (raiseFault .eOwner (encode (.push b data)) s)
  else finish (fun t => t.setResp 0#32) (push .tx data s)

/-- RB.READ (R99): E_OWNER unless B = RX; RESP <- has-data and byte of Read(RX). -/
def execRead (b : Buf) (s : State) : Outcome :=
  if b ≠ .rx then .next (raiseFault .eOwner (encode (.read b)) s)
  else
    match readByte .rx s with
    | .ok (hasData, x, t) => .next (t.setResp (respOfRead hasData x))
    | .error f => .fault f

end Sys2Proof.Machine
end

