-- ==== Sys2Proof/Machine/Dispatch.lean ====
section
/-! DEFINITION. The meaning of each command, one arm per constructor of Instr. -/
namespace Sys2Proof.Machine

def exec (i : Instr) (s : State) : Host.Outcome State Fault Refusal :=
  match i with
  | .resv b => Sys2Proof.Machine.execResv b s
  | .stor b slot data => Sys2Proof.Machine.execStor b slot data s
  | .push b data => Sys2Proof.Machine.execPush b data s
  | .read b => Sys2Proof.Machine.execRead b s
  | .arm src => Sys2Proof.Machine.execArm src s

end Sys2Proof.Machine
end

