-- ==== Sys2Proof/Machine/Task.lean ====
section
/-! DEFINITION. The steps of the task T: commands written to CMD (30_encoding R77), the program's items
(R79, entry 9), and port-register accesses (20_memory R52, R55, entry 13). -/
namespace Sys2Proof.Machine

/-- Execute(w), the effect of writing `w` to CMD (R77): a word that is no legal command is recorded as
E_ILLEGAL; a legal one is executed. -/
def execute (w : Word) (s : State) : Outcome :=
  match decode w with
  | .error _ => .next (raiseFault .eIllegal w s)
  | .ok i => exec i s

/-- The word of `rb.stor tx, RESP[15:0], data`, formed from RESP (R79). DESIGN CHOICE (entry 22, unsafe):
R79 does not say when T reads RESP; it is read in the store's own step. -/
def storWord (s : State) (data : Byte) : Word :=
  encode (.stor .tx (respSlot s.resp) data)

/-- The word of `rb.read rx` (R76). -/
def readWord : Word :=
  encode (.read .rx)

/-- What is left of a poll for `n` data reads once a read has answered `resp`: that many fewer, or nothing
once they have all been made (entry 9). -/
def pollLeft (n : Nat) (resp : Word) : List TaskOp :=
  if respHasData resp then (if n ≤ 1 then [] else [.pollRead (n - 1)]) else [.pollRead n]

/-- One RB.READ of a poll; `ops` is the program after the poll. -/
def pollStep (n : Nat) (ops : List TaskOp) (s : State) : Outcome :=
  match execute readWord s with
  | .next t => .next { t with prog := pollLeft n t.resp ++ ops }
  | .fault f => .fault f
  | .refused r => .refused r

/-- What a read of a port register returns; CMD reads as 0 (R52). No side effect (R56). -/
def portRead (reg : PortReg) (s : State) : Word :=
  match reg with
  | .cmd => 0#32
  | .resp => s.resp
  | .fault => s.faultReg
  | .fcmd => s.fcmd

/-- A write of a port register: CMD executes the word, the others ignore it (R52). -/
def portWrite (reg : PortReg) (w : Word) (s : State) : Outcome :=
  match reg with
  | .cmd => execute w s
  | .resp => .next s
  | .fault => .next s
  | .fcmd => .next s

/-- A bus read. An address outside the window is not the block's (R52); a width or alignment other than
32-bit aligned is refused (R55). -/
def busRead (addr nbytes : Nat) (s : State) : Outcome :=
  if inWindow s.params addr = false then .refused (.notThisBlock addr)
  else if nbytes ≠ 4 then .refused (.portAccessShape addr nbytes)
  else
    match portRegAt s.params addr with
    | none => .refused (.portAccessShape addr nbytes)
    | some reg => .next { s with rdata := portRead reg s }

/-- A bus write of bytes, the lowest address first (R54), with the refusals of a bus read. -/
def busWrite (addr : Nat) (bytes : List Byte) (s : State) : Outcome :=
  if inWindow s.params addr = false then .refused (.notThisBlock addr)
  else
    match bytes with
    | [b0, b1, b2, b3] =>
      match portRegAt s.params addr with
      | none => .refused (.portAccessShape addr 4)
      | some reg => portWrite reg (wordOfBytes b0 b1 b2 b3) s
    | _ => .refused (.portAccessShape addr bytes.length)

/-- One item of the task's program; `ops` is the program after it. -/
def taskOp (op : TaskOp) (ops : List TaskOp) (s : State) : Outcome :=
  match op with
  | .cmd w => execute w { s with prog := ops }
  | .storAtResp data => execute (storWord s data) { s with prog := ops }
  | .pollRead n => pollStep n ops s
  | .busRead addr nbytes => busRead addr nbytes { s with prog := ops }
  | .busWrite addr bytes => busWrite addr bytes { s with prog := ops }

/-- T's step. T steps only when PH = IDLE and its program has an item left (R59); chosen otherwise it
waits, and nothing changes (entry 7). -/
def taskStep (s : State) : Outcome :=
  if s.ph = .idle then
    match s.prog with
    | [] => .next s
    | op :: ops => taskOp op ops s
  else .next s

end Sys2Proof.Machine
end

