-- ==== Sys2Proof/Machine/Agents.lean ====
section
/-! DEFINITION. Who may step and what the step of the agent that moves is (20_memory R57 to R60). -/
namespace Sys2Proof.Machine

/-- The agent has a step in this state (R59, 60_exceptions R143). -/
def enabled (a : Agent) (s : State) : Bool :=
  match a with
  | .task => s.ph == .idle && !s.prog.isEmpty
  | .isr => s.ph != .idle || irq s
  | .device (.arrive _) => decide (s.rxf.length < s.params.rxDepth)
  | .device .depart => !s.txf.isEmpty
  | .device .raiseRx => true
  | .device .raiseTx => true
  | .platformReset => true

/-- The step of the agent that moves, indivisible (R57). -/
def agentStep (a : Agent) (s : State) : Outcome :=
  match a with
  | .task => taskStep s
  | .isr => isrStep s
  | .device d => deviceStep d s
  | .platformReset => .next (blockReset s)

/-- The steps of a list of moves, one after the other, stopping at the first fault or refusal (R60). -/
def runMoves : List Agent → State → Outcome
  | [], s => .next s
  | a :: rest, s =>
    match agentStep a s with
    | .next t => runMoves rest t
    | .fault f => .fault f
    | .refused r => .refused r

/-- The step of whoever the schedule names next, which leaves the schedule; with nobody named nobody
moves (entries 6 and 7). -/
def scheduledStep (s : State) : Outcome :=
  match s.sched with
  | [] => .next s
  | a :: rest => agentStep a { s with sched := rest }

/-- The state with the command word `w` as the task's next command and the task as the next agent to move,
in the phase in which it may (entry 10). -/
def placeCommand (w : Word) (s : State) : State :=
  { s with ph := .idle, prog := .cmd w :: s.prog, sched := .task :: s.sched }

end Sys2Proof.Machine
end

