-- ==== Sys2Proof/Machine/Step.lean ====
section
/-! DEFINITION. One step of the machine, and placing a command where the next step takes it. -/
namespace Sys2Proof.Machine

/-- One atomic step: that of the agent whose turn it is (20_memory R57, R60). -/
def step (s : State) : Host.Outcome State Fault Refusal :=
  scheduledStep s

/-- The state whose very next step runs the command of bits `w` (entry 10). -/
def State.withFetchWord (s : State) (nbits w : Nat) : State :=
  placeCommand (tableWord nbits w) s

end Sys2Proof.Machine
end

