-- ==== Sys2Proof/Machine/Asm.lean ====
section
/-! DEFINITION. The assembler's text (30_encoding R78), the pseudo-instructions (R79) and the disassembler
(R80). What those rules leave open of the text is entry 21. -/
namespace Sys2Proof.Machine

/-! ## Pseudo-instructions -/

/-- `rb.send tx, v`: reserve, then store to the slot RESP returned, two separate steps (R79). -/
def rbSend (v : Byte) : List TaskOp :=
  [.cmd (encode (.resv .tx)), .storAtResp v]

/-- `rb.sendp tx, v`: the indivisible form (R79). -/
def rbSendp (v : Byte) : List TaskOp :=
  [.cmd (encode (.push .tx v))]

/-- `uart.send b1, ..., bk`: each byte by `rb.send`, then `irq.arm tx` (R79). -/
def uartSend (bytes : List Byte) : List TaskOp :=
  bytes.flatMap rbSend ++ [.cmd (encode (.arm .tx))]

/-! ## Disassembler -/

/-- The spelling of a buffer or source operand (R78). -/
def bufText : Buf → String
  | .rx => "rx"
  | .tx => "tx"

/-- `n` in hexadecimal, lower case, with `digits` digits. -/
def hexText (digits n : Nat) : String :=
  String.ofList ((List.range digits).reverse.map (fun k => Nat.digitChar (n / 16 ^ k % 16)))

/-- A command in the syntax of R78 (R80). -/
def instrText : Instr → String
  | .resv b => "rb.resv " ++ bufText b
  | .stor b slot data =>
    "rb.stor " ++ bufText b ++ ", " ++ toString slot.toNat ++ ", 0x" ++ hexText 2 data.toNat
  | .push b data => "rb.push " ++ bufText b ++ ", 0x" ++ hexText 2 data.toNat
  | .read b => "rb.read " ++ bufText b
  | .arm src => "irq.arm " ++ bufText src

/-- The disassembly of a word: a legal word as its command, an illegal one as `.word` (R80). -/
def disassemble (w : Word) : String :=
  match decode w with
  | .ok i => instrText i
  | .error _ => ".word 0x" ++ hexText 8 w.toNat

/-! ## Assembler -/

/-- A token of an assembly line. -/
inductive Token where
  | word (text : List Char)
  | comma
  | chr (c : Char)
deriving DecidableEq, Repr

/-- What the lexer holds: the tokens so far and the characters of the word being read, both the latest
first; how many characters of a quoted character were read; whether a comment has begun; whether the line
is still well quoted. -/
structure LexState where
  toks : List Token
  cur : List Char
  quote : Option (Option Char)
  comment : Bool
  good : Bool
deriving DecidableEq, Repr

/-- The word being read becomes a token. -/
def LexState.flush (l : LexState) : LexState :=
  if l.cur.isEmpty then l
  else { l with toks := .word l.cur.reverse :: l.toks, cur := [] }

/-- A single quote, the delimiter of a character operand (R78). -/
def quoteChar : Char := Char.ofNat 39

/-- One character of a line: blanks separate, a comma is a token, a semicolon starts a comment, a quoted
character is one token (R78). -/
def lexChar (l : LexState) (c : Char) : LexState :=
  if l.comment then l
  else
    match l.quote with
    | some none => { l with quote := some (some c) }
    | some (some x) =>
      if c = quoteChar then { l with toks := .chr x :: l.toks, quote := none }
      else { l with good := false, quote := none }
    | none =>
      if c = ';' then { l.flush with comment := true }
      else if c = ',' then { l.flush with toks := .comma :: l.flush.toks }
      else if c = quoteChar then { l.flush with quote := some none }
      else if c.isWhitespace then l.flush
      else { l with cur := c :: l.cur }

/-- The tokens of a line; none when a quote is left open or holds more than one character. -/
def lexLine (cs : List Char) : Option (List Token) :=
  let l := (cs.foldl lexChar ⟨[], [], none, false, true⟩).flush
  if l.good && l.quote.isNone then some l.toks.reverse else none

/-- The value of a digit in a base up to 16. -/
def digitValue (base : Nat) (c : Char) : Option Nat :=
  let v :=
    if '0' ≤ c ∧ c ≤ '9' then c.toNat - '0'.toNat
    else if 'a' ≤ c ∧ c ≤ 'f' then c.toNat - 'a'.toNat + 10
    else if 'A' ≤ c ∧ c ≤ 'F' then c.toNat - 'A'.toNat + 10
    else 16
  if v < base then some v else none

/-- The number the digits spell, one digit at least. -/
def digitsValue (base : Nat) (cs : List Char) : Option Nat :=
  if cs.isEmpty then none
  else cs.foldl (fun acc c => acc.bind (fun n => (digitValue base c).map (fun d => n * base + d))) (some 0)

/-- A decimal or 0x-hex number (R78). -/
def numberOf : List Char → Option Nat
  | '0' :: 'x' :: cs => digitsValue 16 cs
  | cs => digitsValue 10 cs

/-- A number below a bound. -/
def boundedOf (bound : Nat) (cs : List Char) : Option Nat :=
  (numberOf cs).bind (fun n => if n < bound then some n else none)

/-- `rx` or `tx` (R78). -/
def bufNamed (cs : List Char) : Option Buf :=
  if cs = "rx".toList then some .rx
  else if cs = "tx".toList then some .tx
  else none

/-- `<byte>`: a number below 256, or a quoted ASCII character (R78). -/
def byteOf : Token → Option Byte
  | .word cs => (boundedOf 256 cs).map (BitVec.ofNat 8)
  | .chr c => if c.toNat < 128 then some (BitVec.ofNat 8 c.toNat) else none
  | .comma => none

/-- `<b1>, ..., <bk>`, one byte at least (R79). -/
def byteList : List Token → Option (List Byte)
  | [t] => (byteOf t).map (fun b => [b])
  | t :: .comma :: rest => (byteOf t).bind (fun b => (byteList rest).map (fun bs => b :: bs))
  | _ => none

/-- The mnemonics that take one buffer or source operand (R78). -/
def oneOperand (mnemonic : List Char) (b : Buf) : Option (List TaskOp) :=
  if mnemonic = "rb.resv".toList then some [.cmd (encode (.resv b))]
  else if mnemonic = "rb.read".toList then some [.cmd (encode (.read b))]
  else if mnemonic = "irq.arm".toList then some [.cmd (encode (.arm b))]
  else none

/-- The mnemonics that take a buffer and a byte (R78, R79); the pseudo-instructions take `tx` only. -/
def bufferAndByte (mnemonic : List Char) (b : Buf) (v : Byte) : Option (List TaskOp) :=
  if mnemonic = "rb.push".toList then some [.cmd (encode (.push b v))]
  else if mnemonic = "rb.send".toList ∧ b = .tx then some (rbSend v)
  else if mnemonic = "rb.sendp".toList ∧ b = .tx then some (rbSendp v)
  else none

/-- `rb.stor b, <slot>, <byte>` (R78). -/
def storLine (mnemonic : List Char) (b : Buf) (slot : Nat) (v : Byte) : Option (List TaskOp) :=
  if mnemonic = "rb.stor".toList then some [.cmd (encode (.stor b (BitVec.ofNat 16 slot) v))] else none

/-- `uart.send <b1>, ..., <bk>` (R79). -/
def uartLine (mnemonic : List Char) (operands : List Token) : Option (List TaskOp) :=
  if mnemonic = "uart.send".toList then (byteList operands).map uartSend else none

/-- `.word <32-bit value>`: any raw word (R78). DESIGN CHOICE (entry 21, safe): R78 does not say how the
value is written; it is a decimal or 0x-hex number, of any number of digits, as `<slot>` is. -/
def wordLine (mnemonic value : List Char) : Option (List TaskOp) :=
  if mnemonic = ".word".toList then
    (boundedOf (2 ^ 32) value).map (fun n => [.cmd (BitVec.ofNat 32 n)])
  else none

/-- What a line of tokens assembles to: a blank line to nothing, a line of R78 or R79 to its words, and no
other line to anything. -/
def assembleTokens : List Token → Option (List TaskOp)
  | [] => some []
  | [.word m, .word a] =>
    ((bufNamed a).bind (oneOperand m)).or ((wordLine m a).or (uartLine m [.word a]))
  | [.word m, .word a, .comma, t] =>
    ((bufNamed a).bind (fun b => (byteOf t).bind (bufferAndByte m b))).or
      (uartLine m [.word a, .comma, t])
  | [.word m, .word a, .comma, .word i, .comma, t] =>
    ((bufNamed a).bind (fun b => (boundedOf 65536 i).bind (fun n => (byteOf t).bind (storLine m b n)))).or
      (uartLine m [.word a, .comma, .word i, .comma, t])
  | .word m :: operands => uartLine m operands
  | _ => none

/-- One line of assembly text (R78, R79). -/
def assembleLine (line : String) : Option (List TaskOp) :=
  (lexLine line.toList).bind assembleTokens

/-- A program, line by line (R78: one command per line). -/
def assemble : List String → Option (List TaskOp)
  | [] => some []
  | line :: rest => (assembleLine line).bind (fun ops => (assemble rest).map (fun more => ops ++ more))

end Sys2Proof.Machine
end

