-- ==== Sys2Proof/Safety.lean ====
section
/-! DEFINITION. What counts as a well-formed state, a faulted one, a launch, a quiescent end (70_reset
R162, R177, 60_exceptions R133), and what a fair run is (R138, R144), in the terms the statements use. -/
namespace Sys2Proof.Machine

/-! ## The invariant -/

/-- A ring as 10_state R29 has it: both cursors in [BEGIN, END]; and its storage in canonical form, with
no slot above END (R22, R51). -/
def ringWf (s : State) (b : Buf) : Prop :=
  (s.ring b).rc ≤ s.params.last ∧ (s.ring b).wc ≤ s.params.last ∧
    Memory.wf (s.unlisted b) (s.ring b).store ∧ ∀ c ∈ (s.ring b).store, c.1 ≤ s.params.last

/-- The fault a command word raises, by the checks of 30_encoding R77 in their order, written over the
word's fields and the rows of R73: the first that fails, none when all pass (R131). -/
def commandFault (p : Params) (w : Word) : Option FaultCode :=
  if opcodeMap.all (fun r => !r.selects w) then some .eIllegal
  else if (fieldsOf w).op.toNat ∈ [1, 2, 3] ∧ (fieldsOf w).b ≠ Buf.tx.bit then some .eOwner
  else if (fieldsOf w).op.toNat = 4 ∧ (fieldsOf w).b ≠ Buf.rx.bit then some .eOwner
  else if (fieldsOf w).op.toNat = 2 ∧ p.last < (fieldsOf w).slot.toNat then some .eSlot
  else none

/-- FAULT and FCMD as R36 and R132 leave them: both 0, or V with the code of the fault the word in FCMD
raises (R130). -/
def faultWf (s : State) : Prop :=
  (s.faultReg = 0#32 ∧ s.fcmd = 0#32) ∨
    ∃ c, commandFault s.params s.fcmd = some c ∧ s.faultReg = faultWord c

/-- Each half of the ISR is entered only with its own latch set (R110, R115). -/
def phaseWf (s : State) : Prop :=
  match s.ph with
  | .idle => True
  | .rxAck | .rxDrain | .rxDelim => s.latRx = true
  | .txAck | .txEmpty | .txFill | .txMask => s.latTx = true

/-- The invariant of the machine. -/
structure State.Inv (s : State) : Prop where
  /-- The parameters satisfy R8. -/
  params : s.params.wf
  /-- Both rings satisfy R29. -/
  rings : ∀ b, ringWf s b
  /-- RESP[31:16] = 0 (R36). -/
  resp : s.resp.extractLsb' 16 16 = 0#16
  /-- FAULT and FCMD as R36 and R132 leave them. -/
  fault : faultWf s
  /-- The latches of R34 agree with the phase. -/
  phase : phaseWf s
  /-- |RXF| ≤ RXDEPTH (R38). -/
  rxf : s.rxf.length ≤ s.params.rxDepth
  /-- |TXF| ≤ TXDEPTH (R38). -/
  txf : s.txf.length ≤ s.params.txDepth

/-! ## What a step leaves alone -/

/-- The environment's state and the logs are the same (R37, R38, R40). -/
def envSame (s t : State) : Prop :=
  t.rxie = s.rxie ∧ t.txie = s.txie ∧ t.pRx = s.pRx ∧ t.pTx = s.pTx ∧ t.rxf = s.rxf ∧ t.txf = s.txf ∧
    t.wireIn = s.wireIn ∧ t.wireOut = s.wireOut

/-- The sequencer's state is the same (R33 to R35). -/
def seqSame (s t : State) : Prop :=
  t.ph = s.ph ∧ t.latRx = s.latRx ∧ t.latTx = s.latTx ∧ t.itmp = s.itmp

/-- FAULT and FCMD are the same (R36). -/
def faultSame (s t : State) : Prop :=
  t.faultReg = s.faultReg ∧ t.fcmd = s.fcmd

/-- The parameters, the reset's number and the schedule are the same. -/
def modelSame (s t : State) : Prop :=
  t.params = s.params ∧ t.resetNo = s.resetNo ∧ t.sched = s.sched

/-- The task's own state is the same (R32, R139). -/
def taskSame (s t : State) : Prop :=
  t.prog = s.prog ∧ t.rdata = s.rdata

/-! ## Streams of bytes through a ring -/

/-- Push the bytes one after the other. -/
def pushAll (b : Buf) : List Byte → State → Except Fault State
  | [], s => .ok s
  | v :: rest, s =>
    match push b v s with
    | .ok t => pushAll b rest t
    | .error f => .error f

/-- Read `n` times; the results in order, and the state after them. -/
def readMany (b : Buf) : Nat → State → Except Fault (List (Bool × Byte) × State)
  | 0, s => .ok ([], s)
  | n + 1, s =>
    match readByte b s with
    | .error f => .error f
    | .ok (h, x, t) =>
      match readMany b n t with
      | .error f => .error f
      | .ok (rest, u) => .ok ((h, x) :: rest, u)

/-- The contents of the visible slots, from RC up to but not including WC (R103). -/
def visibleBytes (b : Buf) (s : State) : List Byte :=
  (List.range ((s.ring b).visible s.params)).map
    (fun k => s.slot b (((s.ring b).rc + k) % s.params.cap))

/-! ## Launch and end of a run -/

/-- CleanLaunch (R162): the environment masked, nothing pending or queued, the logs empty, no fault, and
the block state of R160. Storage and ITMP are any bytes, so nothing is said of them. -/
def cleanLaunch (s : State) : Prop :=
  s.rxie = false ∧ s.txie = false ∧ s.pRx = false ∧ s.pTx = false ∧ s.rxf = [] ∧ s.txf = [] ∧
    s.wireIn = [] ∧ s.wireOut = [] ∧ s.faultReg = 0#32 ∧ s.fcmd = 0#32 ∧ s.resp = 0#32 ∧
    s.ph = .idle ∧ s.latRx = false ∧ s.latTx = false ∧
    ∀ b, (s.ring b).rc = s.params.first ∧ (s.ring b).wc = s.params.first

/-- A faulted state: FAULT[31] = 1 (R133). -/
def faulted (s : State) : Prop :=
  faultRecorded s.faultReg = true

/-- The move is one of U's. -/
def Agent.isDevice : Agent → Bool
  | .device _ => true
  | _ => false

/-- A quiescent state (R177): PH = IDLE, IRQ = 0, T has no command left, and U takes no further step in
the script. -/
def quiescent (s : State) : Prop :=
  s.ph = .idle ∧ irq s = false ∧ s.prog = [] ∧ ∀ a ∈ s.sched, a.isDevice = false

/-- A good end: quiescent, and not faulted (R177). -/
def goodEnd (s : State) : Prop :=
  quiescent s ∧ ¬ faulted s

/-! ## Runs and fairness -/

/-- An infinite run: `run n` is the state before the `n`-th move, which is `move n`'s (R60). -/
def IsRun (move : Nat → Agent) (run : Nat → State) : Prop :=
  ∀ n, agentStep (move n) (run n) = .next (run (n + 1))

/-- If `holds` is true from some point on, a move `isMove` eventually occurs. -/
def eventuallyWhen (run : Nat → State) (move : Nat → Agent) (holds : State → Prop) (a : Agent) : Prop :=
  ∀ n, (∀ m, n ≤ m → holds (run m)) → ∃ m, n ≤ m ∧ move m = a

/-- The fairness assumptions, for liveness claims only (R144 (a) to (d), R138). -/
structure Fair (move : Nat → Agent) (run : Nat → State) : Prop where
  /-- (a) RXF ≠ [] is answered by U.RaiseRx. -/
  raiseRx : eventuallyWhen run move (fun s => s.rxf ≠ []) (.device .raiseRx)
  /-- (b) TXF = [] with TXIE = 1 is answered by U.RaiseTx. -/
  raiseTx : eventuallyWhen run move (fun s => s.txf = [] ∧ s.txie = true) (.device .raiseTx)
  /-- (c) TXF ≠ [] is answered by U.Depart. -/
  depart : eventuallyWhen run move (fun s => s.txf ≠ []) (.device .depart)
  /-- (d) an enabled sequencer step is taken. -/
  isr : eventuallyWhen run move (fun s => enabled .isr s = true) .isr

end Sys2Proof.Machine
end

