-- ==== Sys2Proof/Certificates/Slice0/Obligations.lean ====
section
/-! DEFINITION. The statements for the provers, from the numbered rules of spec/. -/

open Sys2Proof Sys2Proof.Machine

/-! ## Encoding -/

/-- R76: the words of `enc`, as numbers, and the rule's five example words; `enc` is the inverse of the
fields of R71. -/
def Obligations.EncodeIsEncOfTheOperands : Prop :=
  (∀ b, (encode (.resv b)).toNat = 0x1 * 2 ^ 28 + b.bit.toNat * 2 ^ 24) ∧
  (∀ b i v, (encode (.stor b i v)).toNat =
    0x2 * 2 ^ 28 + b.bit.toNat * 2 ^ 24 + i.toNat * 2 ^ 8 + v.toNat) ∧
  (∀ b v, (encode (.push b v)).toNat = 0x3 * 2 ^ 28 + b.bit.toNat * 2 ^ 24 + v.toNat) ∧
  (∀ b, (encode (.read b)).toNat = 0x4 * 2 ^ 28 + b.bit.toNat * 2 ^ 24) ∧
  (∀ src, (encode (.arm src)).toNat = 0x5 * 2 ^ 28 + src.bit.toNat * 2 ^ 24) ∧
  (encode (.resv .tx) = 0x11000000#32 ∧ encode (.stor .tx 1 0x69) = 0x21000169#32 ∧
    encode (.push .tx 0x41) = 0x31000041#32 ∧ encode (.read .rx) = 0x40000000#32 ∧
    encode (.arm .rx) = 0x50000000#32 ∧ encode (.arm .tx) = 0x51000000#32) ∧
  (∀ f, fieldsOf (wordOfFields f) = f) ∧ (∀ w, wordOfFields (fieldsOf w) = w)

/-- R76, R70, R54: decoding the word of any command gives it back, and so does decoding its four bytes,
which leaves the bytes after them. -/
def Obligations.DecodeOfEncodeIsTheCommand : Prop :=
  ∀ i rest, decode (encode i) = .ok i ∧
    decodeBytes (bytesOfWord (encode i) ++ rest) = .ok (i, rest)

/-- R71, R73: a legal word is the word of the command it decodes to, so no two legal words decode alike. -/
def Obligations.EncodeOfDecodeIsTheWord : Prop :=
  ∀ w i, decode w = .ok i → encode i = w

/-- R73: a word decodes exactly when it selects a row; the row is the one bearing the command's mnemonic;
and no word selects two rows. -/
def Obligations.DecoderFollowsTheOpcodeMap : Prop :=
  ∀ w, ((∃ i, decode w = .ok i) ↔ ∃ r ∈ opcodeMap, r.selects w = true) ∧
    (∀ i r, decode w = .ok i → r ∈ opcodeMap → r.selects w = true → r.mnemonic = i.mnemonic) ∧
    opcodeMap.Pairwise (fun r q => ¬ (r.selects w = true ∧ q.selects w = true))

/-- R74: which words are illegal, by the rows of R73 and by the fields, and that an illegal word written to
CMD is recorded as E_ILLEGAL (CODE 1) with no other effect; 0x0000_0000 is illegal. -/
def Obligations.IllegalWordsFaultIllegal : Prop :=
  (∀ w, (∃ e, decode w = .error e) ↔ ∀ r ∈ opcodeMap, r.selects w = false) ∧
  (∀ w, (∃ e, decode w = .error e) ↔
    ((fieldsOf w).op = 0x0#4 ∨ 0x6#4 ≤ (fieldsOf w).op ∨ (fieldsOf w).rsv ≠ 0#3 ∨
      ((fieldsOf w).slot ≠ 0#16 ∧ (fieldsOf w).op ∈ [0x1#4, 0x3#4, 0x4#4, 0x5#4]) ∨
      ((fieldsOf w).data ≠ 0#8 ∧ (fieldsOf w).op ∈ [0x1#4, 0x4#4, 0x5#4]))) ∧
  (∀ w s, (∃ e, decode w = .error e) →
    execute w s = .next
      { s with
        resp := 0#32
        faultReg := if s.faultReg.getLsbD 31 then s.faultReg else 0x80000001#32
        fcmd := if s.faultReg.getLsbD 31 then s.fcmd else w }) ∧
  ∃ e, decode 0x00000000#32 = .error e

/-- R76 and the words of 95_test_vectors L2.B and L2.C, cut by hand: what the decoder reads from them. -/
def Obligations.WordsOfTheTestVectorsDecode : Prop :=
  decodeTableWord 32 0x11000000 = some (.resv .tx) ∧
  decodeTableWord 32 0x2103FF00 = some (.stor .tx 1023 0x00) ∧
  decodeTableWord 32 0x31000041 = some (.push .tx 0x41) ∧
  decodeTableWord 32 0x41000000 = some (.read .tx) ∧
  decodeTableWord 32 0x51000000 = some (.arm .tx) ∧
  decodeTableWord 32 0x12000000 = none ∧ decodeTableWord 32 0x11000001 = none ∧
  decodeTableWord 32 0x31000141 = none ∧ decodeTableWord 32 0xF1000000 = none

/-- R78, R80: the text the disassembler prints for a word, legal or not, assembles back to that word; and
the rule's example. What the text leaves open is the model's choice (entry 21). -/
def Obligations.DisassemblyAssemblesBack : Prop :=
  (∀ w, assembleLine (disassemble w) = some [.cmd w]) ∧ disassemble 0x41000000#32 = "rb.read tx"

/-! ## Execute and its faults -/

/-- R131, R132: a command subject to faults raises the first in the order E_ILLEGAL, E_OWNER, E_SLOT;
FAULT and FCMD record it unless one is recorded already; RESP becomes 0; nothing else changes. And the
example of R131. -/
def Obligations.FaultingCommandRecordsFirstFaultOnly : Prop :=
  (∀ w s c, commandFault s.params w = some c →
    execute w s = .next
      { s with
        resp := 0#32
        faultReg :=
          if s.faultReg.getLsbD 31 then s.faultReg
          else match c with
            | .eIllegal => 0x80000001#32
            | .eOwner => 0x80000002#32
            | .eSlot => 0x80000003#32
        fcmd := if s.faultReg.getLsbD 31 then s.fcmd else w }) ∧
  ∀ p, p.cap = 1024 → commandFault p 0x20040000#32 = some .eOwner

/-- R77, R133: in a state whose rings are in range every word written to CMD ends in a next state, whatever
FAULT holds; one that raises no fault leaves FAULT and FCMD as they were. -/
def Obligations.EveryCommandWordCompletes : Prop :=
  ∀ w s, (∀ b, ringWf s b) →
    ∃ t, execute w s = .next t ∧ (commandFault s.params w = none → faultSame s t)

/-- R130: the operand values the port turns away, command by command, with the fault each raises. -/
def Obligations.OwnershipAndSlotChecks : Prop :=
  ∀ s v slot,
    exec (.resv .rx) s = .next (raiseFault .eOwner (encode (.resv .rx)) s) ∧
    exec (.stor .rx slot v) s = .next (raiseFault .eOwner (encode (.stor .rx slot v)) s) ∧
    exec (.push .rx v) s = .next (raiseFault .eOwner (encode (.push .rx v)) s) ∧
    exec (.read .tx) s = .next (raiseFault .eOwner (encode (.read .tx)) s) ∧
    (s.params.last < slot.toNat →
      exec (.stor .tx slot v) s = .next (raiseFault .eSlot (encode (.stor .tx slot v)) s))

/-- R132: FAULT and FCMD keep the first fault until reset: no step of any agent changes them. -/
def Obligations.RecordedFaultStaysUntilReset : Prop :=
  ∀ s t, faulted s → s.sched.head? ≠ some .platformReset → step s = .next t → faultSame s t

/-! ## The commands -/

/-- R96, R91: RB.RESV tx answers with the slot WC was at, and moves WC: to BEGIN at END whatever RC is,
else to the next slot unless that is RC. Nothing else changes. -/
def Obligations.ResvReturnsSlotAndAdvances : Prop :=
  ∀ s, s.params.wf → s.tx.wc ≤ s.params.cap - 1 →
    exec (.resv .tx) s = .next
      { s with
        resp := BitVec.ofNat 32 s.tx.wc
        tx :=
          { s.tx with
            wc :=
              if s.tx.wc = s.params.cap - 1 then 0
              else if s.tx.wc + 1 ≠ s.tx.rc then s.tx.wc + 1
              else s.tx.wc } }

/-- R97, R92: RB.STOR tx, i, v with i ≤ END stores v into slot i, moves no cursor, and answers 0. -/
def Obligations.StorWritesTheSlot : Prop :=
  ∀ s slot v, slot.toNat ≤ s.params.cap - 1 →
    ∃ t, exec (.stor .tx slot v) s = .next t ∧ t.resp = 0#32 ∧ t.slot .tx slot.toNat = v ∧
      t.tx.rc = s.tx.rc ∧ t.tx.wc = s.tx.wc

/-- R98, R94: RB.PUSH tx, v stores v into the slot WC was at, moves WC as RB.RESV does, and answers 0. -/
def Obligations.PushStoresAndAdvances : Prop :=
  ∀ s v, s.tx.wc ≤ s.params.cap - 1 →
    ∃ t, exec (.push .tx v) s = .next t ∧ t.resp = 0#32 ∧ t.slot .tx s.tx.wc = v ∧ t.tx.rc = s.tx.rc ∧
      t.tx.wc =
        if s.tx.wc = s.params.cap - 1 then 0
        else if s.tx.wc + 1 ≠ s.tx.rc then s.tx.wc + 1
        else s.tx.wc

/-- R99, R93: RB.READ rx on a ring with data answers RESP[8] = 1 and the byte at RC, clears its slot and
moves RC on, wrapping after END; on an empty ring it answers RESP[8] = 0 and the byte at RC, and nothing
else changes. -/
def Obligations.ReadTakesTheOldestByte : Prop :=
  ∀ s, s.rx.rc ≤ s.params.cap - 1 →
    (s.rx.rc ≠ s.rx.wc →
      ∃ t, exec (.read .rx) s = .next t ∧
        t.resp = BitVec.ofNat 32 (0x100 + (s.slot .rx s.rx.rc).toNat) ∧
        t.slot .rx s.rx.rc = 0x00#8 ∧ t.rx.wc = s.rx.wc ∧
        t.rx.rc = if s.rx.rc = s.params.cap - 1 then 0 else s.rx.rc + 1) ∧
    (s.rx.rc = s.rx.wc →
      exec (.read .rx) s = .next { s with resp := BitVec.ofNat 32 (s.slot .rx s.rx.rc).toNat })

/-- R120: IRQ.ARM sets the enable bit of the source it names and answers 0, and nothing else changes. -/
def Obligations.ArmSetsTheEnableBit : Prop :=
  ∀ s, exec (.arm .rx) s = .next { s with rxie := true, resp := 0#32 } ∧
    exec (.arm .tx) s = .next { s with txie := true, resp := 0#32 }

/-- R24, R36, R96, R120: what RB.RESV and IRQ.ARM leave alone: everything but RESP, and WC[TX] of RB.RESV
tx, FAULT and FCMD of the turned-away RB.RESV rx, the named enable bit of IRQ.ARM. No slot changes. -/
def Obligations.RegisterCommandsFrame : Prop :=
  (∀ b s t, exec (.resv b) s = .next t →
    modelSame s t ∧ seqSame s t ∧ envSame s t ∧ taskSame s t ∧ t.rx = s.rx ∧ t.tx.rc = s.tx.rc ∧
      (b = .rx → t.tx.wc = s.tx.wc) ∧ (b = .tx → faultSame s t) ∧
      ∀ c a, t.slot c a = s.slot c a) ∧
  (∀ src s t, exec (.arm src) s = .next t →
    modelSame s t ∧ seqSame s t ∧ faultSame s t ∧ taskSame s t ∧ t.rx = s.rx ∧ t.tx = s.tx ∧
      t.pRx = s.pRx ∧ t.pTx = s.pTx ∧ t.rxf = s.rxf ∧ t.txf = s.txf ∧ t.wireIn = s.wireIn ∧
      t.wireOut = s.wireOut ∧ (src = .rx → t.txie = s.txie) ∧ (src = .tx → t.rxie = s.rxie) ∧
      ∀ c a, t.slot c a = s.slot c a)

/-- R97, R98, R99: what the storing commands leave alone. RB.STOR: all but RESP and the slot it names.
RB.PUSH: all but RESP, WC[TX] and the slot Reserve hands out. RB.READ: all but RESP, RC[RX] and the slot at
RC[RX]. A turned-away form changes RESP, FAULT and FCMD only. -/
def Obligations.StoringCommandsFrame : Prop :=
  (∀ b slot v s t, exec (.stor b slot v) s = .next t →
    modelSame s t ∧ seqSame s t ∧ envSame s t ∧ taskSame s t ∧ t.rx = s.rx ∧ t.tx.rc = s.tx.rc ∧
      t.tx.wc = s.tx.wc ∧
      (b = .tx → slotIndex slot ≤ s.params.last → faultSame s t) ∧
      (b = .rx ∨ s.params.last < slotIndex slot → t.tx = s.tx) ∧
      (∀ a, t.slot .rx a = s.slot .rx a) ∧
      ∀ a, a ≠ slotIndex slot → t.slot .tx a = s.slot .tx a) ∧
  (∀ b v s t, exec (.push b v) s = .next t →
    modelSame s t ∧ seqSame s t ∧ envSame s t ∧ taskSame s t ∧ t.rx = s.rx ∧ t.tx.rc = s.tx.rc ∧
      (b = .tx → faultSame s t) ∧ (b = .rx → t.tx = s.tx) ∧
      (∀ a, t.slot .rx a = s.slot .rx a) ∧
      ∀ a, a ≠ (reserve .tx s).1 → t.slot .tx a = s.slot .tx a) ∧
  (∀ b s t, exec (.read b) s = .next t →
    modelSame s t ∧ seqSame s t ∧ envSame s t ∧ taskSame s t ∧ t.tx = s.tx ∧ t.rx.wc = s.rx.wc ∧
      (b = .rx → faultSame s t) ∧ (b = .tx ∨ s.rx.rc = s.rx.wc → t.rx = s.rx) ∧
      (∀ a, t.slot .tx a = s.slot .tx a) ∧
      ∀ a, a ≠ s.rx.rc → t.slot .rx a = s.slot .rx a)

/-! ## The ring buffers -/

/-- R29: with both cursors in range Visible is at most C − 1, and 0 exactly when the ring is empty. -/
def Obligations.VisibleIsAtMostCapacityLessOne : Prop :=
  ∀ s b, s.params.wf → ringWf s b →
    (s.ring b).visible s.params ≤ s.params.cap - 1 ∧
      ((s.ring b).visible s.params = 0 ↔ (s.ring b).isEmpty = true)

/-- R95: how Reserve and Read change Visible. -/
def Obligations.ReserveAndReadChangeVisible : Prop :=
  ∀ s b, s.params.wf → ringWf s b →
    ((s.ring b).isFull s.params = true →
      ((reserve b s).2.ring b).visible s.params = (s.ring b).visible s.params) ∧
    ((s.ring b).isFull s.params = false →
      ((reserve b s).2.ring b).visible s.params = ((s.ring b).visible s.params + 1) % s.params.cap) ∧
    ((s.ring b).isFull s.params = false →
      ¬ ((s.ring b).wc = s.params.last ∧ (s.ring b).rc = s.params.first) →
      ((reserve b s).2.ring b).visible s.params = (s.ring b).visible s.params + 1) ∧
    ((s.ring b).wc = s.params.last → (s.ring b).rc = s.params.first →
      (s.ring b).visible s.params = s.params.cap - 1 ∧
        ((reserve b s).2.ring b).visible s.params = 0) ∧
    (∀ h x t, readByte b s = .ok (h, x, t) →
      (h = true → (t.ring b).visible s.params = (s.ring b).visible s.params - 1 ∧
        0 < (s.ring b).visible s.params) ∧
      (h = false → (t.ring b).visible s.params = 0 ∧ (s.ring b).visible s.params = 0))

/-- R23, R8, R95: the cursors fit W = ceil(log2 C) bits, before and after Succ. -/
def Obligations.CursorsFitTheirWidth : Prop :=
  ∀ s b, s.params.wf → ringWf s b →
    2 ^ (s.params.cursorBits - 1) < s.params.cap ∧ s.params.cap ≤ 2 ^ s.params.cursorBits ∧
    (s.ring b).rc < 2 ^ s.params.cursorBits ∧ (s.ring b).wc < 2 ^ s.params.cursorBits ∧
    succ s.params (s.ring b).rc < 2 ^ s.params.cursorBits ∧
    succ s.params (s.ring b).wc < 2 ^ s.params.cursorBits

/-- R105: any number of Reads of an empty ring answer no data with the same byte and change nothing. -/
def Obligations.EmptyReadsChangeNothing : Prop :=
  ∀ s b n, ringWf s b → (s.ring b).isEmpty = true →
    readMany b n s = .ok (List.replicate n (false, s.slot b (s.ring b).rc), s)

/-- R103: the bytes Read returns are the contents of the slots from RC up to but not including WC, in
order. -/
def Obligations.ReadsReturnTheVisibleSlots : Prop :=
  ∀ s b, s.params.wf → ringWf s b →
    ∃ t, readMany b ((s.ring b).visible s.params) s =
        .ok ((visibleBytes b s).map (fun x => (true, x)), t) ∧
      (t.ring b).isEmpty = true ∧ (t.ring b).wc = (s.ring b).wc

/-- R104: from an empty ring, N ≤ C − 1 Pushes and then N Reads give the N bytes in push order, each with
has-data 1, wherever the cursors stand; the ring is empty again, and no slot above END is touched. -/
def Obligations.FifoOrderAcrossTheWrap : Prop :=
  ∀ s b bytes, s.params.wf → ringWf s b → (s.ring b).isEmpty = true →
    bytes.length ≤ s.params.cap - 1 →
    ∃ t u, pushAll b bytes s = .ok t ∧
      readMany b bytes.length t = .ok (bytes.map (fun x => (true, x)), u) ∧
      (u.ring b).isEmpty = true ∧ ∀ a, s.params.last < a → u.slot b a = s.slot b a

/-- R100, R102 (a): while a ring is full every Push writes the gap slot and moves nothing, so the bytes
already visible are delivered intact and in order and none of the pushed bytes becomes visible. After the
consumer's next Read, the next Push moves past the gap slot and overwrites the byte left there: what becomes
visible is that Push's byte. -/
def Obligations.PushesWhileFullAreLost : Prop :=
  ∀ s b bytes, s.params.wf → ringWf s b → (s.ring b).isFull s.params = true →
    ∃ t, pushAll b bytes s = .ok t ∧ (t.ring b).isFull s.params = true ∧
      (t.ring b).rc = (s.ring b).rc ∧ (t.ring b).wc = (s.ring b).wc ∧
      (∀ a, a ≠ (s.ring b).wc → t.slot b a = s.slot b a) ∧
      (∀ v, bytes.getLast? = some v → t.slot b (s.ring b).wc = v) ∧
      visibleBytes b t = visibleBytes b s ∧
      ∀ w, ∃ x r u, readByte b t = .ok (true, x, r) ∧ visibleBytes b s = x :: visibleBytes b r ∧
        push b w r = .ok u ∧ u.slot b (s.ring b).wc = w ∧
        (u.ring b).wc = succ s.params (s.ring b).wc ∧ visibleBytes b u = visibleBytes b r ++ [w]

/-- R101, R102 (b): at WC = END with RC = BEGIN the ring holds C − 1 bytes; a Push leaves it empty with
every other slot's content in place; the next Push overwrites slot BEGIN, and the next Read gives that byte,
not the oldest unread one. -/
def Obligations.EndWrapEmptiesAFullRing : Prop :=
  ∀ s b v w, s.params.wf → ringWf s b → (s.ring b).wc = s.params.last →
    (s.ring b).rc = s.params.first →
    (s.ring b).visible s.params = s.params.cap - 1 ∧
    ∃ t u x, push b v s = .ok t ∧ (t.ring b).isEmpty = true ∧ (t.ring b).wc = s.params.first ∧
      t.slot b s.params.last = v ∧ (∀ a, a ≠ s.params.last → t.slot b a = s.slot b a) ∧
      push b w t = .ok u ∧ u.slot b s.params.first = w ∧
      readByte b u = .ok (true, w, x) ∧ (x.ring b).isEmpty = true

/-! ## The ISR sequencer -/

/-- R110: the phase transitions, complete. -/
def Obligations.PhaseGraph : Prop :=
  ∀ s t, isrStep s = .next t →
    match s.ph with
    | .idle =>
      (irq s = true → t.ph = if t.latRx then .rxAck else .txAck) ∧
        (irq s = true → t.latRx = false → t.latTx = true) ∧ (irq s = false → t = s)
    | .rxAck => t.ph = .rxDrain
    | .rxDrain => if s.rxf ≠ [] then t.ph = .rxDrain ∧ t.rxf = s.rxf.tail else t.ph = .rxDelim
    | .rxDelim => t.ph = if s.latTx then .txAck else .idle
    | .txAck => t.ph = .txEmpty
    | .txEmpty => t.ph = if s.txf = [] then .txFill else .idle
    | .txFill =>
      if s.txf.length = s.params.txDepth then t.ph = .idle ∧ t.txie = s.txie
      else if s.tx.rc ≠ s.tx.wc then t.ph = .txFill ∧ t.txf = s.txf ++ [s.slot .tx s.tx.rc]
      else t.ph = .txMask
    | .txMask => t.ph = .idle

/-- R111, R139: Entry, enabled when PH = IDLE and IRQ = 1, latches the masked status and goes to RX_ACK,
or to TX_ACK when LAT_RX = 0; it changes nothing else. -/
def Obligations.EntryLatchesTheStatus : Prop :=
  ∀ s, s.ph = .idle → (s.pRx && s.rxie || s.pTx && s.txie) = true →
    agentStep .isr s = .next
      { s with
        latRx := s.pRx && s.rxie
        latTx := s.pTx && s.txie
        ph := if s.pRx && s.rxie then .rxAck else .txAck }

/-- R112, R113, R114: the RX half, phase by phase: acknowledge; one byte from RXF into the ring while data
is ready, else on to the delimiter; the delimiter 0x09 whether or not a byte was drained. A byte goes into
the slot WC was at and WC moves as R91 says; RC and every other slot stay. -/
def Obligations.RxPhases : Prop :=
  ∀ s, ringWf s .rx →
    (s.ph = .rxAck → isrStep s = .next { s with pRx := false, ph := .rxDrain }) ∧
    (∀ v rest, s.ph = .rxDrain → s.rxf = v :: rest →
      ∃ t, isrStep s = .next t ∧ push .rx v { s with rxf := rest } = .ok t ∧
        t.slot .rx s.rx.wc = v ∧ t.ph = .rxDrain ∧ t.rxf = rest ∧ t.rx.rc = s.rx.rc ∧
        t.rx.wc =
          (if s.rx.wc = s.params.cap - 1 then 0
          else if s.rx.wc + 1 ≠ s.rx.rc then s.rx.wc + 1
          else s.rx.wc) ∧
        ∀ a, a ≠ s.rx.wc → t.slot .rx a = s.slot .rx a) ∧
    (s.ph = .rxDrain → s.rxf = [] → isrStep s = .next { s with ph := .rxDelim }) ∧
    (s.ph = .rxDelim →
      ∃ t, push .rx 0x09#8 s = .ok t ∧ t.slot .rx s.rx.wc = 0x09#8 ∧ t.rx.rc = s.rx.rc ∧
        t.rx.wc =
          (if s.rx.wc = s.params.cap - 1 then 0
          else if s.rx.wc + 1 ≠ s.rx.rc then s.rx.wc + 1
          else s.rx.wc) ∧
        (∀ a, a ≠ s.rx.wc → t.slot .rx a = s.slot .rx a) ∧
        isrStep s = .next { t with ph := if s.latTx then .txAck else .idle })

/-- R115, R116, R117, R118: the TX half, phase by phase: acknowledge; on only when TXF is empty; one byte
from the ring into TXF while TXF is not full and the ring has data, ITMP taking the byte read; TXIE cleared
once the ring has none. That ITMP takes the stale byte of the empty Read, as R117 writes it where 93 X3
calls the value any, is the model's reading (entry 5). -/
def Obligations.TxPhases : Prop :=
  ∀ s, ringWf s .tx →
    (s.ph = .txAck → isrStep s = .next { s with pTx := false, ph := .txEmpty }) ∧
    (s.ph = .txEmpty → isrStep s = .next { s with ph := if s.txf = [] then .txFill else .idle }) ∧
    (s.ph = .txFill → s.txf.length = s.params.txDepth → isrStep s = .next { s with ph := .idle }) ∧
    (s.ph = .txFill → s.txf.length ≠ s.params.txDepth → s.tx.rc = s.tx.wc →
      isrStep s = .next { s with itmp := s.slot .tx s.tx.rc, ph := .txMask }) ∧
    (s.ph = .txFill → s.txf.length ≠ s.params.txDepth → s.tx.rc ≠ s.tx.wc →
      ∃ t, isrStep s = .next t ∧ t.ph = .txFill ∧ t.itmp = s.slot .tx s.tx.rc ∧
        t.txf = s.txf ++ [s.slot .tx s.tx.rc] ∧ t.slot .tx s.tx.rc = 0x00#8 ∧
        t.tx.rc = succ s.params s.tx.rc ∧ t.tx.wc = s.tx.wc ∧
        ∀ a, a ≠ s.tx.rc → t.slot .tx a = s.slot .tx a) ∧
    (s.ph = .txMask → isrStep s = .next { s with txie := false, ph := .idle })

/-- R125, R139: the sequencer never writes RESP, FAULT or FCMD, nor the task's own state. -/
def Obligations.IsrLeavesThePortAndTheTask : Prop :=
  ∀ s t, agentStep .isr s = .next t →
    t.resp = s.resp ∧ faultSame s t ∧ taskSame s t ∧ modelSame s t

/-- R126: the device bits the sequencer writes, and how it accesses the two FIFOs. -/
def Obligations.IsrWritesExactlyTheseDeviceBits : Prop :=
  ∀ s t, isrStep s = .next t →
    t.rxie = s.rxie ∧ t.wireIn = s.wireIn ∧ t.wireOut = s.wireOut ∧
    t.pRx = (if s.ph = .rxAck then false else s.pRx) ∧
    t.pTx = (if s.ph = .txAck then false else s.pTx) ∧
    t.txie = (if s.ph = .txMask then false else s.txie) ∧
    t.rxf = (if s.ph = .rxDrain then s.rxf.tail else s.rxf) ∧
    (t.txf = s.txf ∨ (s.ph = .txFill ∧ ∃ x, t.txf = s.txf ++ [x]))

/-- R124: the RX half's steps read and write only the RX half's state and the TX half's only the TX half's:
two states that agree on a half's own state (and on PH and the latches) agree on it after the half's step,
and the other half's state is as it was. -/
def Obligations.HalvesAreIndependent : Prop :=
  ∀ s u t, isrStep s = .next t → u.params = s.params → u.resetNo = s.resetNo → u.ph = s.ph →
    u.latRx = s.latRx → u.latTx = s.latTx →
    (s.ph ∈ [Phase.rxAck, .rxDrain, .rxDelim] →
      (t.pTx = s.pTx ∧ t.txf = s.txf ∧ t.txie = s.txie ∧ t.tx = s.tx ∧ t.itmp = s.itmp) ∧
      (u.pRx = s.pRx → u.rxf = s.rxf → u.rx = s.rx →
        ∃ v, isrStep u = .next v ∧ v.pRx = t.pRx ∧ v.rxf = t.rxf ∧ v.rx = t.rx ∧ v.ph = t.ph)) ∧
    (s.ph ∈ [Phase.txAck, .txEmpty, .txFill, .txMask] →
      (t.pRx = s.pRx ∧ t.rxf = s.rxf ∧ t.rx = s.rx) ∧
      (u.pTx = s.pTx → u.txf = s.txf → u.txie = s.txie → u.tx = s.tx → u.itmp = s.itmp →
        ∃ v, isrStep u = .next v ∧ v.pTx = t.pTx ∧ v.txf = t.txf ∧ v.txie = t.txie ∧ v.tx = t.tx ∧
          v.itmp = t.itmp ∧ v.ph = t.ph))

/-- R122: a sequencer step clears TXIE exactly in TX_MASK, which is entered exactly by the TX_FILL step
whose Read finds TXF not full and the ring empty. -/
def Obligations.TxieClearedOnlyAfterAnEmptyRead : Prop :=
  ∀ s t, isrStep s = .next t →
    (s.txie = true → (t.txie = false ↔ s.ph = .txMask)) ∧
    (t.ph = .txMask ↔
      s.ph = .txFill ∧ s.txf.length ≠ s.params.txDepth ∧ (s.ring .tx).isEmpty = true)

/-- R123: TX_FILL ends within Visible(TX) + 1 of its own steps, whatever steps of the task and of the
device come between them. -/
def Obligations.TxFillEndsWithinVisiblePlusOne : Prop :=
  ∀ (s : State) moves t, s.Inv → s.ph = .txFill → Agent.platformReset ∉ moves →
    (s.ring .tx).visible s.params + 1 ≤ moves.count .isr → runMoves moves s = .next t →
    ∃ k u, k ≤ moves.length ∧ runMoves (moves.take k) s = .next u ∧ u.ph ≠ .txFill

/-- R121, R111 to R114: with the device quiet, an RX invocation, from Entry, acknowledges P_RX, pushes every
byte of RXF in order and then exactly one delimiter 0x09, and goes on to the TX half when the TX source was
latched, or to IDLE; and the same of its rest from RX_DRAIN. -/
def Obligations.RxInvocationAppendsOneDelimiter : Prop :=
  (∀ s : State, s.Inv → s.ph = .idle → s.pRx = true → s.rxie = true →
    ∃ t, pushAll .rx (s.rxf ++ [0x09#8])
        { s with pRx := false, latRx := true, latTx := s.pTx && s.txie, rxf := [] } = .ok t ∧
      runMoves (List.replicate (s.rxf.length + 4) .isr) s =
        .next { t with ph := if s.pTx && s.txie then .txAck else .idle }) ∧
  ∀ s : State, s.Inv → s.ph = .rxDrain →
    ∃ t, pushAll .rx (s.rxf ++ [0x09#8]) { s with rxf := [] } = .ok t ∧
      runMoves (List.replicate (s.rxf.length + 2) .isr) s =
        .next { t with ph := if s.latTx then .txAck else .idle }

/-- R117, R118, R122: with the device quiet and room in TXF for one byte more than the ring holds, a fill
moves every visible byte into TXF in order, empties the ring, clears TXIE and returns. -/
def Obligations.TxFillDrainsTheRing : Prop :=
  ∀ s : State, s.Inv → s.ph = .txFill →
    s.txf.length + (s.ring .tx).visible s.params + 1 ≤ s.params.txDepth →
    ∃ t, runMoves (List.replicate ((s.ring .tx).visible s.params + 2) .isr) s = .next t ∧
      t.txf = s.txf ++ visibleBytes .tx s ∧ t.txie = false ∧ t.ph = .idle ∧
      t.tx.rc = s.tx.wc ∧ t.tx.wc = s.tx.wc

/-! ## Agents -/

/-- R27, R24: ownership. The task never moves WC[RX] or RC[TX], the sequencer never moves RC[RX] or WC[TX],
the device moves no cursor. -/
def Obligations.EachCursorHasOneWriter : Prop :=
  (∀ s t, agentStep .task s = .next t → t.rx.wc = s.rx.wc ∧ t.tx.rc = s.tx.rc) ∧
  (∀ s t, agentStep .isr s = .next t → t.rx.rc = s.rx.rc ∧ t.tx.wc = s.tx.wc) ∧
  (∀ s t d, agentStep (.device d) s = .next t → t.rx = s.rx ∧ t.tx = s.tx)

/-- R136, R120, R126, R143: an enable bit is set only by a step of the task that executes IRQ.ARM of that
source, as a command of its program or as the four bytes of its word written to CMD; RXIE is cleared by no
step, and TXIE by the sequencer's TX_MASK step only. How T's program is held is entry 9; that a reset leaves
the bits is entry 15. -/
def Obligations.EnableBitsChangeOnlyByArmAndMask : Prop :=
  ∀ a s t, agentStep a s = .next t →
    (s.rxie = true → t.rxie = true) ∧
    (s.rxie = false → t.rxie = true →
      a = .task ∧ s.ph = .idle ∧ ∃ w, decode w = .ok (.arm .rx) ∧
        (s.prog.head? = some (.cmd w) ∨
          s.prog.head? = some (.busWrite s.params.blockBase (bytesOfWord w)))) ∧
    (s.txie = true → t.txie = false → a = .isr ∧ s.ph = .txMask) ∧
    (s.txie = false → t.txie = true →
      a = .task ∧ s.ph = .idle ∧ ∃ w, decode w = .ok (.arm .tx) ∧
        (s.prog.head? = some (.cmd w) ∨
          s.prog.head? = some (.busWrite s.params.blockBase (bytesOfWord w))))

/-- R40, R126, R143: the bytes sent on the line followed by those still in TXF change only by the one byte
a TX_FILL step appends; so TXF loses and reorders none. -/
def Obligations.TransmittedBytesKeepTheirOrder : Prop :=
  ∀ a s t, agentStep a s = .next t →
    t.wireOut ++ t.txf = s.wireOut ++ s.txf ∨
      (a = .isr ∧ s.ph = .txFill ∧ s.tx.rc ≠ s.tx.wc ∧
        t.wireOut ++ t.txf = s.wireOut ++ s.txf ++ [s.slot .tx s.tx.rc])

/-- R40, R126, R143: RXF always holds the last bytes that came from the line, in their order: every step of
every agent keeps it so. The bytes drained grow only in RX_DRAIN, by the one byte popped, and WIRE_IN only
by the byte of an arrival. That a reset leaves the FIFO and the log is entry 15. -/
def Obligations.ReceivedBytesKeepTheirOrder : Prop :=
  ∀ a s t drained, s.wireIn = drained ++ s.rxf → agentStep a s = .next t →
    t.wireIn =
        drained ++ (if a = .isr ∧ s.ph = .rxDrain then s.rxf.take 1 else []) ++ t.rxf ∧
      (t.wireIn = s.wireIn ∨ ∃ v, a = .device (.arrive v) ∧ t.wireIn = s.wireIn ++ [v])

/-- R143: the steps of U, each where it is enabled, with its whole effect. -/
def Obligations.DeviceSteps : Prop :=
  ∀ s, (∀ v, s.rxf.length < s.params.rxDepth →
      agentStep (.device (.arrive v)) s =
        .next { s with rxf := s.rxf ++ [v], wireIn := s.wireIn ++ [v] }) ∧
    (∀ v rest, s.txf = v :: rest →
      agentStep (.device .depart) s = .next { s with txf := rest, wireOut := s.wireOut ++ [v] }) ∧
    agentStep (.device .raiseRx) s = .next { s with pRx := true } ∧
    agentStep (.device .raiseTx) s = .next { s with pTx := true }

/-- R59, R142: while PH ≠ IDLE the task does not step, whatever its program; while PH = IDLE and IRQ = 0
the sequencer does not. An agent chosen while it has no step changes nothing, but for an arrival at a full
receive FIFO, which is refused; these two outcomes are the model's choice (entries 7 and 8). -/
def Obligations.DisabledAgentsDoNotStep : Prop :=
  (∀ s, s.ph ≠ .idle → enabled .task s = false ∧ enabled .isr s = true) ∧
  (∀ s, s.ph = .idle → enabled .isr s = irq s) ∧
  (∀ a s, enabled a s = false →
    agentStep a s = .next s ∨
      ((∃ v, a = .device (.arrive v)) ∧ agentStep a s = .refused .arriveAtFullFifo))

/-- R57, R58, R77: when the task is named, PH = IDLE and its next item is the word of a command, the step
is exec of that command on the state with both consumed; a word that decodes to nothing raises E_ILLEGAL;
a step with any agent named is that agent's; and a command placed by withFetchWord is what the very next
step runs. How programs and schedules are held is the model's choice (entries 6, 9, 10). -/
def Obligations.StepRunsTheDecodedCommand : Prop :=
  (∀ s w ops rest i, s.sched = .task :: rest → s.ph = .idle → s.prog = .cmd w :: ops →
    decode w = .ok i → step s = exec i { s with sched := rest, prog := ops }) ∧
  (∀ s w ops rest e, s.sched = .task :: rest → s.ph = .idle → s.prog = .cmd w :: ops →
    decode w = .error e →
    step s = .next (raiseFault .eIllegal w { s with sched := rest, prog := ops })) ∧
  (∀ s a rest, s.sched = a :: rest → step s = agentStep a { s with sched := rest }) ∧
  (∀ (s : State) n w i, decodeTableWord n w = some i →
    step (s.withFetchWord n w) = exec i { s with ph := .idle })

/-- R52, R54, R56: what T's aligned 32-bit accesses of the four port registers do: CMD reads 0 and a write
of it executes the word its four bytes make, little-endian; the others read as they are and ignore writes.
That the value read lands in `rdata` is the model's (entry 14). -/
def Obligations.PortRegisterMap : Prop :=
  ∀ s (w : Word),
    busRead s.params.blockBase 4 s = .next { s with rdata := 0#32 } ∧
    busRead (s.params.blockBase + 0x4) 4 s = .next { s with rdata := s.resp } ∧
    busRead (s.params.blockBase + 0x8) 4 s = .next { s with rdata := s.faultReg } ∧
    busRead (s.params.blockBase + 0xC) 4 s = .next { s with rdata := s.fcmd } ∧
    busWrite s.params.blockBase (bytesOfWord w) s = execute w s ∧
    busWrite (s.params.blockBase + 0x4) (bytesOfWord w) s = .next s ∧
    busWrite (s.params.blockBase + 0x8) (bytesOfWord w) s = .next s ∧
    busWrite (s.params.blockBase + 0xC) (bytesOfWord w) s = .next s

/-- R55 (b), (c), R52: an access of the window of another width, or at an address that is not ≡ 0 mod 4, is
refused, and an access outside the 16-byte window is not the block's. -/
def Obligations.OtherPortAccessesAreRefused : Prop :=
  ∀ s addr nbytes bytes, s.params.wf →
    (addr < s.params.blockBase ∨ s.params.blockBase + 0x10 ≤ addr →
      busRead addr nbytes s = .refused (.notThisBlock addr) ∧
        busWrite addr bytes s = .refused (.notThisBlock addr)) ∧
    (s.params.blockBase ≤ addr → addr < s.params.blockBase + 0x10 →
      (nbytes ≠ 4 ∨ addr % 4 ≠ 0 →
        busRead addr nbytes s = .refused (.portAccessShape addr nbytes)) ∧
      (bytes.length ≠ 4 ∨ addr % 4 ≠ 0 →
        busWrite addr bytes s = .refused (.portAccessShape addr bytes.length)))

/-- R79, R94: `rb.send tx, v` run with nothing between its two steps leaves what `rb.sendp tx, v` leaves. -/
def Obligations.SendUninterruptedEqualsPush : Prop :=
  ∀ (s : State) v ops, s.Inv → s.ph = .idle →
    runMoves [.task, .task] { s with prog := rbSend v ++ ops } =
      runMoves [.task] { s with prog := rbSendp v ++ ops }

/-- R165: the reserve/store window. From an empty TX ring with TXIE = 1 and the ISR about to serve TX, an
invocation between RB.RESV and RB.STOR sends the reserved slot's previous content, clears TXIE, and the
byte stored afterwards lies behind RC, in an empty ring: one wrong byte is sent and v is lost. -/
def Obligations.ReserveStoreWindow : Prop :=
  ∀ s v ops, s.Inv → s.ph = .idle → s.prog = rbSend v ++ ops → (s.ring .tx).isEmpty = true →
    s.txie = true → s.pTx = true → s.pRx = false → s.txf = [] → 2 ≤ s.params.txDepth →
    ∃ t, runMoves (.task :: (List.replicate 6 .isr ++ [.task])) s = .next t ∧
      t.txf = [s.slot .tx s.tx.wc] ∧ t.txie = false ∧ t.ph = .idle ∧ t.prog = ops ∧
      t.slot .tx s.tx.wc = v ∧ (t.ring .tx).isEmpty = true ∧ t.tx.wc = succ s.params s.tx.wc

/-- R138, R144 (d): in a fair run in which PH = IDLE and from then on IRQ stays 1, Entry is taken. -/
def Obligations.EntryIsEventuallyTaken : Prop :=
  ∀ move run n, IsRun move run → Fair move run → (run n).ph = .idle →
    (∀ m, n ≤ m → irq (run m) = true) →
    ∃ m, n ≤ m ∧ move m = .isr ∧ (run m).ph = .idle ∧ (run (m + 1)).ph ≠ .idle

/-- R177, R59: a quiescent state stays as it is: but for a reset, every step that its schedule still names
changes nothing but the schedule, and leaves a quiescent state. -/
def Obligations.QuiescentStatesRest : Prop :=
  ∀ s, quiescent s → s.sched.head? ≠ some .platformReset →
    step s = .next { s with sched := s.sched.tail } ∧ quiescent { s with sched := s.sched.tail }

/-! ## Reset and the invariant -/

/-- R160, R161, R136: a reset puts every piece of block state at its value of R41 and draws storage and ITMP
afresh; it writes neither the environment's state nor, by the model's choice (entry 15), the logs, the
task's state or the schedule. -/
def Obligations.ResetSetsTheBlockState : Prop :=
  ∀ s, ∃ t, agentStep .platformReset s = .next t ∧
    (∀ b, (t.ring b).rc = 0 ∧ (t.ring b).wc = 0 ∧
      ∀ i, t.slot b i = Config.storeDraw (s.resetNo + 1) b i) ∧
    t.itmp = Config.itmpDraw (s.resetNo + 1) ∧
    t.ph = .idle ∧ t.latRx = false ∧ t.latTx = false ∧ t.resp = 0#32 ∧ t.faultReg = 0#32 ∧
    t.fcmd = 0#32 ∧ envSame s t ∧ taskSame s t ∧ t.params = s.params ∧ t.sched = s.sched

/-- R41, R162: the state the machine comes out of reset in is CleanLaunch, for every value of the
parameters, and both rings are empty. -/
def Obligations.LaunchIsClean : Prop :=
  (∀ p prog sched, cleanLaunch (State.launch p prog sched) ∧
    ∀ b, ((State.launch p prog sched).ring b).isEmpty = true) ∧
  cleanLaunch State.reset ∧ State.reset.params.cap = 1024

/-- The launch state meets the invariant, for parameters that satisfy R8, and so does State.reset. -/
def Obligations.ResetMeetsTheInvariant : Prop :=
  (∀ p prog sched, p.wf → (State.launch p prog sched).Inv) ∧ State.reset.Inv

/-- R8, R29, R36, R38, R110, R130: every step, of any agent, keeps the invariant: the cursors of both rings
in range and their storage canonical, RESP[31:16] = 0, FAULT and FCMD consistent, the latches agreeing
with the phase, the FIFOs no longer than their depths. -/
def Obligations.StepKeepsTheInvariant : Prop :=
  ∀ (s t : State), s.Inv → step s = .next t → t.Inv

/-- R51: no access outside the storage exists: from a state that meets the invariant no step ends in a
fault. -/
def Obligations.NoStepLeavesTheStorage : Prop :=
  ∀ (s : State) f, s.Inv → step s ≠ .fault f

/-- R8: no step changes a parameter. -/
def Obligations.ParametersNeverChange : Prop :=
  ∀ s t, step s = .next t → t.params = s.params

/-- R59, R133, R142, R52, R55: from a state that meets the invariant every step ends in a next state, but for
the two things outside the model: a bus access the block does not serve, refused as not the block's where it
starts outside the 16-byte window and by its shape where it starts in the window and is not 4 bytes wide at a
multiple of 4; and an arrival at a full FIFO. The refusals are entries 8 and 13. -/
def Obligations.OnlyOutsideTheModelIsRefused : Prop :=
  ∀ s : State, s.Inv →
    (∃ t, step s = .next t) ∨
    (∃ addr n, s.sched.head? = some .task ∧ s.ph = .idle ∧
      (s.prog.head? = some (.busRead addr n) ∨
        ∃ bytes, s.prog.head? = some (.busWrite addr bytes) ∧ bytes.length = n) ∧
      ((step s = .refused (.notThisBlock addr) ∧
          (addr < s.params.blockBase ∨ s.params.blockBase + 0x10 ≤ addr)) ∨
        (step s = .refused (.portAccessShape addr n) ∧ s.params.blockBase ≤ addr ∧
          addr < s.params.blockBase + 0x10 ∧ (n ≠ 4 ∨ addr % 4 ≠ 0)))) ∨
    (∃ v, s.sched.head? = some (.device (.arrive v)) ∧ s.rxf.length = s.params.rxDepth ∧
      step s = .refused .arriveAtFullFifo)
end

