-- ==== Sys2Proof/Laws/Memory.lean ====
section
/-! SUPPORT. The laws of the sparse bytes: reading after writing, and that every operation keeps the
canonical form. -/
namespace Sys2Proof.Machine

theorem Memory.lookup_put_self (a : Nat) (v : Byte) (m : List Host.Cell) :
    (Memory.put a v m).lookup a = some v := by
  induction m with
  | nil => simp [Memory.put]
  | cons c rest ih =>
    obtain ⟨k, w⟩ := c
    unfold Memory.put
    split
    · simp
    · split
      · simp
      · rename_i h1 h2
        simp only [] at h1 h2
        have hk : (a == k) = false := by simpa using h2
        simp [List.lookup_cons, hk, ih]

theorem Memory.lookup_put_other {a b : Nat} (v : Byte) (m : List Host.Cell) (h : b ≠ a) :
    (Memory.put a v m).lookup b = m.lookup b := by
  have hb : (b == a) = false := by simpa using h
  induction m with
  | nil => simpa [Memory.put] using h
  | cons c rest ih =>
    obtain ⟨k, w⟩ := c
    unfold Memory.put
    split
    · simp [List.lookup_cons, hb]
    · split
      · rename_i h1 h2
        simp only [] at h2
        subst h2
        simp [List.lookup_cons, hb]
      · simp only [List.lookup_cons, ih]

theorem Memory.lookup_drop_self (a : Nat) (m : List Host.Cell) : (Memory.drop a m).lookup a = none := by
  induction m with
  | nil => rfl
  | cons c rest ih =>
    obtain ⟨k, w⟩ := c
    unfold Memory.drop at ih ⊢
    by_cases h : k = a
    · simp [h, ih]
    · have : (a == k) = false := by simpa using Ne.symm h
      simp [h, List.lookup_cons, this, ih]

theorem Memory.lookup_drop_other {a b : Nat} (m : List Host.Cell) (h : b ≠ a) :
    (Memory.drop a m).lookup b = m.lookup b := by
  induction m with
  | nil => rfl
  | cons c rest ih =>
    obtain ⟨k, w⟩ := c
    unfold Memory.drop at ih ⊢
    by_cases hk : k = a
    · subst hk
      have : (b == k) = false := by simpa using h
      simp [List.lookup_cons, this, ih]
    · simp [hk, List.lookup_cons, ih]

/-- A read after a write to the same address gives the byte written. -/
@[simp] theorem Memory.read_write_self (f : Nat → Byte) (m : List Host.Cell) (a : Nat) (v : Byte) :
    Memory.read f (Memory.write f m a v) a = v := by
  unfold Memory.read Memory.write
  split
  · rename_i h
    simp [Memory.lookup_drop_self, h]
  · simp [Memory.lookup_put_self]

/-- A write leaves every other address alone. -/
theorem Memory.read_write_other (f : Nat → Byte) (m : List Host.Cell) {a b : Nat} (v : Byte) (h : b ≠ a) :
    Memory.read f (Memory.write f m a v) b = Memory.read f m b := by
  unfold Memory.read Memory.write
  split
  · rw [Memory.lookup_drop_other m h]
  · rw [Memory.lookup_put_other v m h]

theorem Memory.mem_put {c : Host.Cell} {a : Nat} {v : Byte} {m : List Host.Cell}
    (h : c ∈ Memory.put a v m) : c = (a, v) ∨ c ∈ m := by
  induction m with
  | nil => exact .inl (by simpa [Memory.put] using h)
  | cons d rest ih =>
    unfold Memory.put at h
    split at h
    · simpa using h
    · split at h
      · rcases List.mem_cons.mp h with h | h
        · exact .inl h
        · exact .inr (List.mem_cons_of_mem _ h)
      · rcases List.mem_cons.mp h with h | h
        · exact .inr (h ▸ List.mem_cons_self)
        · rcases ih h with h | h
          · exact .inl h
          · exact .inr (List.mem_cons_of_mem _ h)

theorem Memory.pairwise_put (a : Nat) (v : Byte) {m : List Host.Cell}
    (h : m.Pairwise (fun c d => c.1 < d.1)) :
    (Memory.put a v m).Pairwise (fun c d => c.1 < d.1) := by
  induction m with
  | nil => simp [Memory.put]
  | cons c rest ih =>
    have hc := List.pairwise_cons.mp h
    unfold Memory.put
    split
    · rename_i h1
      refine List.pairwise_cons.mpr ⟨fun d hd => ?_, h⟩
      rcases List.mem_cons.mp hd with rfl | hd
      · exact h1
      · exact Nat.lt_trans h1 (hc.1 d hd)
    · split
      · rename_i h2
        exact List.pairwise_cons.mpr ⟨fun d hd => h2 ▸ hc.1 d hd, hc.2⟩
      · rename_i h1 h2
        refine List.pairwise_cons.mpr ⟨fun d hd => ?_, ih hc.2⟩
        rcases Memory.mem_put hd with rfl | hd
        · simp only []
          omega
        · exact hc.1 d hd

/-- Every cell a write leaves was there before, or is the one written. -/
theorem Memory.mem_write {f : Nat → Byte} {m : List Host.Cell} {a : Nat} {v : Byte} {c : Host.Cell}
    (h : c ∈ Memory.write f m a v) : (c = (a, v) ∧ v ≠ f a) ∨ c ∈ m := by
  unfold Memory.write at h
  split at h
  · exact .inr (List.mem_of_mem_filter h)
  · rename_i hv
    rcases Memory.mem_put h with h | h
    · exact .inl ⟨h, hv⟩
    · exact .inr h

/-- A write keeps the canonical form. -/
theorem Memory.wf_write {f : Nat → Byte} {m : List Host.Cell} (a : Nat) (v : Byte) (h : Memory.wf f m) :
    Memory.wf f (Memory.write f m a v) := by
  refine ⟨?_, fun c hc => ?_⟩
  · unfold Memory.write
    split
    · exact h.1.sublist List.filter_sublist
    · exact Memory.pairwise_put a v h.1
  · rcases Memory.mem_write hc with ⟨rfl, hv⟩ | hc
    · exact hv
    · exact h.2 c hc

theorem Memory.wf_nil (f : Nat → Byte) : Memory.wf f [] := by
  simp [Memory.wf]

end Sys2Proof.Machine
end

