-- ==== Sys2Proof/Laws/State.lean ====
section
/-! SUPPORT. One lemma per field per named update of the state, and the ring accessor's laws. -/
namespace Sys2Proof.Machine

/-! ## setRing -/

@[simp] theorem State.setRing_params (s : State) (b : Buf) (r : Ring) : (s.setRing b r).params = s.params := by
  cases b <;> rfl

@[simp] theorem State.setRing_resetNo (s : State) (b : Buf) (r : Ring) : (s.setRing b r).resetNo = s.resetNo := by
  cases b <;> rfl

@[simp] theorem State.setRing_ph (s : State) (b : Buf) (r : Ring) : (s.setRing b r).ph = s.ph := by
  cases b <;> rfl

@[simp] theorem State.setRing_latRx (s : State) (b : Buf) (r : Ring) : (s.setRing b r).latRx = s.latRx := by
  cases b <;> rfl

@[simp] theorem State.setRing_latTx (s : State) (b : Buf) (r : Ring) : (s.setRing b r).latTx = s.latTx := by
  cases b <;> rfl

@[simp] theorem State.setRing_itmp (s : State) (b : Buf) (r : Ring) : (s.setRing b r).itmp = s.itmp := by
  cases b <;> rfl

@[simp] theorem State.setRing_resp (s : State) (b : Buf) (r : Ring) : (s.setRing b r).resp = s.resp := by
  cases b <;> rfl

@[simp] theorem State.setRing_faultReg (s : State) (b : Buf) (r : Ring) : (s.setRing b r).faultReg = s.faultReg := by
  cases b <;> rfl

@[simp] theorem State.setRing_fcmd (s : State) (b : Buf) (r : Ring) : (s.setRing b r).fcmd = s.fcmd := by
  cases b <;> rfl

@[simp] theorem State.setRing_rxie (s : State) (b : Buf) (r : Ring) : (s.setRing b r).rxie = s.rxie := by
  cases b <;> rfl

@[simp] theorem State.setRing_txie (s : State) (b : Buf) (r : Ring) : (s.setRing b r).txie = s.txie := by
  cases b <;> rfl

@[simp] theorem State.setRing_pRx (s : State) (b : Buf) (r : Ring) : (s.setRing b r).pRx = s.pRx := by
  cases b <;> rfl

@[simp] theorem State.setRing_pTx (s : State) (b : Buf) (r : Ring) : (s.setRing b r).pTx = s.pTx := by
  cases b <;> rfl

@[simp] theorem State.setRing_rxf (s : State) (b : Buf) (r : Ring) : (s.setRing b r).rxf = s.rxf := by
  cases b <;> rfl

@[simp] theorem State.setRing_txf (s : State) (b : Buf) (r : Ring) : (s.setRing b r).txf = s.txf := by
  cases b <;> rfl

@[simp] theorem State.setRing_wireIn (s : State) (b : Buf) (r : Ring) : (s.setRing b r).wireIn = s.wireIn := by
  cases b <;> rfl

@[simp] theorem State.setRing_wireOut (s : State) (b : Buf) (r : Ring) : (s.setRing b r).wireOut = s.wireOut := by
  cases b <;> rfl

@[simp] theorem State.setRing_prog (s : State) (b : Buf) (r : Ring) : (s.setRing b r).prog = s.prog := by
  cases b <;> rfl

@[simp] theorem State.setRing_rdata (s : State) (b : Buf) (r : Ring) : (s.setRing b r).rdata = s.rdata := by
  cases b <;> rfl

@[simp] theorem State.setRing_sched (s : State) (b : Buf) (r : Ring) : (s.setRing b r).sched = s.sched := by
  cases b <;> rfl

@[simp] theorem State.setRing_rx_rx (s : State) (r : Ring) : (s.setRing .rx r).rx = r := rfl
@[simp] theorem State.setRing_rx_tx (s : State) (r : Ring) : (s.setRing .rx r).tx = s.tx := rfl
@[simp] theorem State.setRing_tx_rx (s : State) (r : Ring) : (s.setRing .tx r).rx = s.rx := rfl
@[simp] theorem State.setRing_tx_tx (s : State) (r : Ring) : (s.setRing .tx r).tx = r := rfl

@[simp] theorem State.ring_rx (s : State) : s.ring .rx = s.rx := rfl
@[simp] theorem State.ring_tx (s : State) : s.ring .tx = s.tx := rfl

@[simp] theorem State.ring_setRing_self (s : State) (b : Buf) (r : Ring) : (s.setRing b r).ring b = r := by
  cases b <;> rfl

theorem State.ring_setRing_other (s : State) {b c : Buf} (r : Ring) (h : c ≠ b) :
    (s.setRing b r).ring c = s.ring c := by
  cases b <;> cases c <;> first | rfl | exact absurd rfl h

@[simp] theorem State.setRing_ring (s : State) (b : Buf) : s.setRing b (s.ring b) = s := by
  cases b <;> rfl

@[simp] theorem State.setRing_setRing (s : State) (b : Buf) (r q : Ring) :
    (s.setRing b r).setRing b q = s.setRing b q := by
  cases b <;> rfl

@[simp] theorem State.unlisted_setRing (s : State) (b c : Buf) (r : Ring) :
    (s.setRing b r).unlisted c = s.unlisted c := by
  cases b <;> rfl

/-! ## writeSlot -/

@[simp] theorem State.writeSlot_params (s : State) (b : Buf) (i : Nat) (v : Byte) : (s.writeSlot b i v).params = s.params := by
  cases b <;> rfl

@[simp] theorem State.writeSlot_resetNo (s : State) (b : Buf) (i : Nat) (v : Byte) : (s.writeSlot b i v).resetNo = s.resetNo := by
  cases b <;> rfl

@[simp] theorem State.writeSlot_ph (s : State) (b : Buf) (i : Nat) (v : Byte) : (s.writeSlot b i v).ph = s.ph := by
  cases b <;> rfl

@[simp] theorem State.writeSlot_latRx (s : State) (b : Buf) (i : Nat) (v : Byte) : (s.writeSlot b i v).latRx = s.latRx := by
  cases b <;> rfl

@[simp] theorem State.writeSlot_latTx (s : State) (b : Buf) (i : Nat) (v : Byte) : (s.writeSlot b i v).latTx = s.latTx := by
  cases b <;> rfl

@[simp] theorem State.writeSlot_itmp (s : State) (b : Buf) (i : Nat) (v : Byte) : (s.writeSlot b i v).itmp = s.itmp := by
  cases b <;> rfl

@[simp] theorem State.writeSlot_resp (s : State) (b : Buf) (i : Nat) (v : Byte) : (s.writeSlot b i v).resp = s.resp := by
  cases b <;> rfl

@[simp] theorem State.writeSlot_faultReg (s : State) (b : Buf) (i : Nat) (v : Byte) : (s.writeSlot b i v).faultReg = s.faultReg := by
  cases b <;> rfl

@[simp] theorem State.writeSlot_fcmd (s : State) (b : Buf) (i : Nat) (v : Byte) : (s.writeSlot b i v).fcmd = s.fcmd := by
  cases b <;> rfl

@[simp] theorem State.writeSlot_rxie (s : State) (b : Buf) (i : Nat) (v : Byte) : (s.writeSlot b i v).rxie = s.rxie := by
  cases b <;> rfl

@[simp] theorem State.writeSlot_txie (s : State) (b : Buf) (i : Nat) (v : Byte) : (s.writeSlot b i v).txie = s.txie := by
  cases b <;> rfl

@[simp] theorem State.writeSlot_pRx (s : State) (b : Buf) (i : Nat) (v : Byte) : (s.writeSlot b i v).pRx = s.pRx := by
  cases b <;> rfl

@[simp] theorem State.writeSlot_pTx (s : State) (b : Buf) (i : Nat) (v : Byte) : (s.writeSlot b i v).pTx = s.pTx := by
  cases b <;> rfl

@[simp] theorem State.writeSlot_rxf (s : State) (b : Buf) (i : Nat) (v : Byte) : (s.writeSlot b i v).rxf = s.rxf := by
  cases b <;> rfl

@[simp] theorem State.writeSlot_txf (s : State) (b : Buf) (i : Nat) (v : Byte) : (s.writeSlot b i v).txf = s.txf := by
  cases b <;> rfl

@[simp] theorem State.writeSlot_wireIn (s : State) (b : Buf) (i : Nat) (v : Byte) : (s.writeSlot b i v).wireIn = s.wireIn := by
  cases b <;> rfl

@[simp] theorem State.writeSlot_wireOut (s : State) (b : Buf) (i : Nat) (v : Byte) : (s.writeSlot b i v).wireOut = s.wireOut := by
  cases b <;> rfl

@[simp] theorem State.writeSlot_prog (s : State) (b : Buf) (i : Nat) (v : Byte) : (s.writeSlot b i v).prog = s.prog := by
  cases b <;> rfl

@[simp] theorem State.writeSlot_rdata (s : State) (b : Buf) (i : Nat) (v : Byte) : (s.writeSlot b i v).rdata = s.rdata := by
  cases b <;> rfl

@[simp] theorem State.writeSlot_sched (s : State) (b : Buf) (i : Nat) (v : Byte) : (s.writeSlot b i v).sched = s.sched := by
  cases b <;> rfl

@[simp] theorem State.writeSlot_rc (s : State) (b c : Buf) (i : Nat) (v : Byte) :
    ((s.writeSlot b i v).ring c).rc = (s.ring c).rc := by
  cases b <;> cases c <;> rfl

@[simp] theorem State.writeSlot_wc (s : State) (b c : Buf) (i : Nat) (v : Byte) :
    ((s.writeSlot b i v).ring c).wc = (s.ring c).wc := by
  cases b <;> cases c <;> rfl

@[simp] theorem State.writeSlot_rx_rc (s : State) (b : Buf) (i : Nat) (v : Byte) :
    (s.writeSlot b i v).rx.rc = s.rx.rc :=
  State.writeSlot_rc s b .rx i v

@[simp] theorem State.writeSlot_rx_wc (s : State) (b : Buf) (i : Nat) (v : Byte) :
    (s.writeSlot b i v).rx.wc = s.rx.wc :=
  State.writeSlot_wc s b .rx i v

@[simp] theorem State.writeSlot_tx_rc (s : State) (b : Buf) (i : Nat) (v : Byte) :
    (s.writeSlot b i v).tx.rc = s.tx.rc :=
  State.writeSlot_rc s b .tx i v

@[simp] theorem State.writeSlot_tx_wc (s : State) (b : Buf) (i : Nat) (v : Byte) :
    (s.writeSlot b i v).tx.wc = s.tx.wc :=
  State.writeSlot_wc s b .tx i v

theorem State.ring_writeSlot_other (s : State) {b c : Buf} (i : Nat) (v : Byte) (h : c ≠ b) :
    (s.writeSlot b i v).ring c = s.ring c :=
  State.ring_setRing_other s _ h

/-! ## setResp -/

@[simp] theorem State.setResp_params (s : State) (w : Word) : (s.setResp w).params = s.params := rfl
@[simp] theorem State.setResp_rx (s : State) (w : Word) : (s.setResp w).rx = s.rx := rfl
@[simp] theorem State.setResp_tx (s : State) (w : Word) : (s.setResp w).tx = s.tx := rfl
@[simp] theorem State.setResp_resetNo (s : State) (w : Word) : (s.setResp w).resetNo = s.resetNo := rfl
@[simp] theorem State.setResp_ph (s : State) (w : Word) : (s.setResp w).ph = s.ph := rfl
@[simp] theorem State.setResp_latRx (s : State) (w : Word) : (s.setResp w).latRx = s.latRx := rfl
@[simp] theorem State.setResp_latTx (s : State) (w : Word) : (s.setResp w).latTx = s.latTx := rfl
@[simp] theorem State.setResp_itmp (s : State) (w : Word) : (s.setResp w).itmp = s.itmp := rfl
@[simp] theorem State.setResp_faultReg (s : State) (w : Word) : (s.setResp w).faultReg = s.faultReg := rfl
@[simp] theorem State.setResp_fcmd (s : State) (w : Word) : (s.setResp w).fcmd = s.fcmd := rfl
@[simp] theorem State.setResp_rxie (s : State) (w : Word) : (s.setResp w).rxie = s.rxie := rfl
@[simp] theorem State.setResp_txie (s : State) (w : Word) : (s.setResp w).txie = s.txie := rfl
@[simp] theorem State.setResp_pRx (s : State) (w : Word) : (s.setResp w).pRx = s.pRx := rfl
@[simp] theorem State.setResp_pTx (s : State) (w : Word) : (s.setResp w).pTx = s.pTx := rfl
@[simp] theorem State.setResp_rxf (s : State) (w : Word) : (s.setResp w).rxf = s.rxf := rfl
@[simp] theorem State.setResp_txf (s : State) (w : Word) : (s.setResp w).txf = s.txf := rfl
@[simp] theorem State.setResp_wireIn (s : State) (w : Word) : (s.setResp w).wireIn = s.wireIn := rfl
@[simp] theorem State.setResp_wireOut (s : State) (w : Word) : (s.setResp w).wireOut = s.wireOut := rfl
@[simp] theorem State.setResp_prog (s : State) (w : Word) : (s.setResp w).prog = s.prog := rfl
@[simp] theorem State.setResp_rdata (s : State) (w : Word) : (s.setResp w).rdata = s.rdata := rfl
@[simp] theorem State.setResp_sched (s : State) (w : Word) : (s.setResp w).sched = s.sched := rfl

@[simp] theorem State.setResp_resp (s : State) (w : Word) : (s.setResp w).resp = w := rfl

/-! ## setPh -/

@[simp] theorem State.setPh_params (s : State) (ph : Phase) : (s.setPh ph).params = s.params := rfl
@[simp] theorem State.setPh_rx (s : State) (ph : Phase) : (s.setPh ph).rx = s.rx := rfl
@[simp] theorem State.setPh_tx (s : State) (ph : Phase) : (s.setPh ph).tx = s.tx := rfl
@[simp] theorem State.setPh_resetNo (s : State) (ph : Phase) : (s.setPh ph).resetNo = s.resetNo := rfl
@[simp] theorem State.setPh_latRx (s : State) (ph : Phase) : (s.setPh ph).latRx = s.latRx := rfl
@[simp] theorem State.setPh_latTx (s : State) (ph : Phase) : (s.setPh ph).latTx = s.latTx := rfl
@[simp] theorem State.setPh_itmp (s : State) (ph : Phase) : (s.setPh ph).itmp = s.itmp := rfl
@[simp] theorem State.setPh_resp (s : State) (ph : Phase) : (s.setPh ph).resp = s.resp := rfl
@[simp] theorem State.setPh_faultReg (s : State) (ph : Phase) : (s.setPh ph).faultReg = s.faultReg := rfl
@[simp] theorem State.setPh_fcmd (s : State) (ph : Phase) : (s.setPh ph).fcmd = s.fcmd := rfl
@[simp] theorem State.setPh_rxie (s : State) (ph : Phase) : (s.setPh ph).rxie = s.rxie := rfl
@[simp] theorem State.setPh_txie (s : State) (ph : Phase) : (s.setPh ph).txie = s.txie := rfl
@[simp] theorem State.setPh_pRx (s : State) (ph : Phase) : (s.setPh ph).pRx = s.pRx := rfl
@[simp] theorem State.setPh_pTx (s : State) (ph : Phase) : (s.setPh ph).pTx = s.pTx := rfl
@[simp] theorem State.setPh_rxf (s : State) (ph : Phase) : (s.setPh ph).rxf = s.rxf := rfl
@[simp] theorem State.setPh_txf (s : State) (ph : Phase) : (s.setPh ph).txf = s.txf := rfl
@[simp] theorem State.setPh_wireIn (s : State) (ph : Phase) : (s.setPh ph).wireIn = s.wireIn := rfl
@[simp] theorem State.setPh_wireOut (s : State) (ph : Phase) : (s.setPh ph).wireOut = s.wireOut := rfl
@[simp] theorem State.setPh_prog (s : State) (ph : Phase) : (s.setPh ph).prog = s.prog := rfl
@[simp] theorem State.setPh_rdata (s : State) (ph : Phase) : (s.setPh ph).rdata = s.rdata := rfl
@[simp] theorem State.setPh_sched (s : State) (ph : Phase) : (s.setPh ph).sched = s.sched := rfl

@[simp] theorem State.setPh_ph (s : State) (ph : Phase) : (s.setPh ph).ph = ph := rfl

/-! ## setItmp -/

@[simp] theorem State.setItmp_params (s : State) (x : Byte) : (s.setItmp x).params = s.params := rfl
@[simp] theorem State.setItmp_rx (s : State) (x : Byte) : (s.setItmp x).rx = s.rx := rfl
@[simp] theorem State.setItmp_tx (s : State) (x : Byte) : (s.setItmp x).tx = s.tx := rfl
@[simp] theorem State.setItmp_resetNo (s : State) (x : Byte) : (s.setItmp x).resetNo = s.resetNo := rfl
@[simp] theorem State.setItmp_ph (s : State) (x : Byte) : (s.setItmp x).ph = s.ph := rfl
@[simp] theorem State.setItmp_latRx (s : State) (x : Byte) : (s.setItmp x).latRx = s.latRx := rfl
@[simp] theorem State.setItmp_latTx (s : State) (x : Byte) : (s.setItmp x).latTx = s.latTx := rfl
@[simp] theorem State.setItmp_resp (s : State) (x : Byte) : (s.setItmp x).resp = s.resp := rfl
@[simp] theorem State.setItmp_faultReg (s : State) (x : Byte) : (s.setItmp x).faultReg = s.faultReg := rfl
@[simp] theorem State.setItmp_fcmd (s : State) (x : Byte) : (s.setItmp x).fcmd = s.fcmd := rfl
@[simp] theorem State.setItmp_rxie (s : State) (x : Byte) : (s.setItmp x).rxie = s.rxie := rfl
@[simp] theorem State.setItmp_txie (s : State) (x : Byte) : (s.setItmp x).txie = s.txie := rfl
@[simp] theorem State.setItmp_pRx (s : State) (x : Byte) : (s.setItmp x).pRx = s.pRx := rfl
@[simp] theorem State.setItmp_pTx (s : State) (x : Byte) : (s.setItmp x).pTx = s.pTx := rfl
@[simp] theorem State.setItmp_rxf (s : State) (x : Byte) : (s.setItmp x).rxf = s.rxf := rfl
@[simp] theorem State.setItmp_txf (s : State) (x : Byte) : (s.setItmp x).txf = s.txf := rfl
@[simp] theorem State.setItmp_wireIn (s : State) (x : Byte) : (s.setItmp x).wireIn = s.wireIn := rfl
@[simp] theorem State.setItmp_wireOut (s : State) (x : Byte) : (s.setItmp x).wireOut = s.wireOut := rfl
@[simp] theorem State.setItmp_prog (s : State) (x : Byte) : (s.setItmp x).prog = s.prog := rfl
@[simp] theorem State.setItmp_rdata (s : State) (x : Byte) : (s.setItmp x).rdata = s.rdata := rfl
@[simp] theorem State.setItmp_sched (s : State) (x : Byte) : (s.setItmp x).sched = s.sched := rfl

@[simp] theorem State.setItmp_itmp (s : State) (x : Byte) : (s.setItmp x).itmp = x := rfl

/-! ## devPushTx -/

@[simp] theorem devPushTx_params (v : Byte) (s : State) : (devPushTx v s).params = s.params := rfl
@[simp] theorem devPushTx_rx (v : Byte) (s : State) : (devPushTx v s).rx = s.rx := rfl
@[simp] theorem devPushTx_tx (v : Byte) (s : State) : (devPushTx v s).tx = s.tx := rfl
@[simp] theorem devPushTx_resetNo (v : Byte) (s : State) : (devPushTx v s).resetNo = s.resetNo := rfl
@[simp] theorem devPushTx_ph (v : Byte) (s : State) : (devPushTx v s).ph = s.ph := rfl
@[simp] theorem devPushTx_latRx (v : Byte) (s : State) : (devPushTx v s).latRx = s.latRx := rfl
@[simp] theorem devPushTx_latTx (v : Byte) (s : State) : (devPushTx v s).latTx = s.latTx := rfl
@[simp] theorem devPushTx_itmp (v : Byte) (s : State) : (devPushTx v s).itmp = s.itmp := rfl
@[simp] theorem devPushTx_resp (v : Byte) (s : State) : (devPushTx v s).resp = s.resp := rfl
@[simp] theorem devPushTx_faultReg (v : Byte) (s : State) : (devPushTx v s).faultReg = s.faultReg := rfl
@[simp] theorem devPushTx_fcmd (v : Byte) (s : State) : (devPushTx v s).fcmd = s.fcmd := rfl
@[simp] theorem devPushTx_rxie (v : Byte) (s : State) : (devPushTx v s).rxie = s.rxie := rfl
@[simp] theorem devPushTx_txie (v : Byte) (s : State) : (devPushTx v s).txie = s.txie := rfl
@[simp] theorem devPushTx_pRx (v : Byte) (s : State) : (devPushTx v s).pRx = s.pRx := rfl
@[simp] theorem devPushTx_pTx (v : Byte) (s : State) : (devPushTx v s).pTx = s.pTx := rfl
@[simp] theorem devPushTx_rxf (v : Byte) (s : State) : (devPushTx v s).rxf = s.rxf := rfl
@[simp] theorem devPushTx_wireIn (v : Byte) (s : State) : (devPushTx v s).wireIn = s.wireIn := rfl
@[simp] theorem devPushTx_wireOut (v : Byte) (s : State) : (devPushTx v s).wireOut = s.wireOut := rfl
@[simp] theorem devPushTx_prog (v : Byte) (s : State) : (devPushTx v s).prog = s.prog := rfl
@[simp] theorem devPushTx_rdata (v : Byte) (s : State) : (devPushTx v s).rdata = s.rdata := rfl
@[simp] theorem devPushTx_sched (v : Byte) (s : State) : (devPushTx v s).sched = s.sched := rfl

@[simp] theorem devPushTx_txf (v : Byte) (s : State) : (devPushTx v s).txf = s.txf ++ [v] := rfl

/-! ## The slots and rings under updates that touch neither -/

@[simp] theorem State.ring_setResp (s : State) (w : Word) (b : Buf) : (s.setResp w).ring b = s.ring b := by
  cases b <;> rfl

@[simp] theorem State.ring_setPh (s : State) (ph : Phase) (b : Buf) : (s.setPh ph).ring b = s.ring b := by
  cases b <;> rfl

@[simp] theorem State.ring_setItmp (s : State) (x : Byte) (b : Buf) : (s.setItmp x).ring b = s.ring b := by
  cases b <;> rfl

@[simp] theorem State.ring_devPushTx (v : Byte) (s : State) (b : Buf) :
    (devPushTx v s).ring b = s.ring b := by
  cases b <;> rfl

/-- A slot's content depends on the reset's draw and on its ring alone. -/
theorem State.slot_congr {s t : State} {b : Buf} (hn : t.resetNo = s.resetNo) (hr : t.ring b = s.ring b)
    (i : Nat) : t.slot b i = s.slot b i := by
  simp only [State.slot, State.unlisted, hn, hr]

@[simp] theorem State.slot_setResp (s : State) (w : Word) (b : Buf) (i : Nat) :
    (s.setResp w).slot b i = s.slot b i :=
  State.slot_congr rfl (State.ring_setResp s w b) i

@[simp] theorem State.slot_setPh (s : State) (ph : Phase) (b : Buf) (i : Nat) :
    (s.setPh ph).slot b i = s.slot b i :=
  State.slot_congr rfl (State.ring_setPh s ph b) i

@[simp] theorem State.slot_setItmp (s : State) (x : Byte) (b : Buf) (i : Nat) :
    (s.setItmp x).slot b i = s.slot b i :=
  State.slot_congr rfl (State.ring_setItmp s x b) i

@[simp] theorem State.slot_devPushTx (v : Byte) (s : State) (b : Buf) (i : Nat) :
    (devPushTx v s).slot b i = s.slot b i :=
  State.slot_congr rfl (State.ring_devPushTx v s b) i

end Sys2Proof.Machine
end

