-- ==== Sys2Proof/Laws/Ops.lean ====
section
/-! SUPPORT. One lemma for each shared operation, saying all it can do: slot accesses, the ring primitives,
recording a fault, and the device accesses. -/
namespace Sys2Proof.Machine

/-! ## Cursors -/

theorem succ_last (p : Params) : succ p p.last = p.first := by
  simp [succ]

theorem succ_of_ne {p : Params} {i : Nat} (h : i ≠ p.last) : succ p i = i + 1 := by
  simp [succ, h]

/-- Succ stays in [BEGIN, END]. -/
theorem succ_le_last {p : Params} {i : Nat} (h : i ≤ p.last) : succ p i ≤ p.last := by
  unfold succ
  split
  · simp [Params.first]
  · omega

/-- Reserve leaves WC in [BEGIN, END]. -/
theorem Ring.wcAfterReserve_le_last {p : Params} {r : Ring} (h : r.wc ≤ p.last) :
    r.wcAfterReserve p ≤ p.last := by
  unfold Ring.wcAfterReserve Ring.next
  split
  · simp [Params.first]
  · split
    · exact succ_le_last h
    · exact h

/-! ## RESP -/

theorem respOfSlot_eq {i : Nat} (h : i < 65536) : respOfSlot i = BitVec.ofNat 32 i := by
  apply BitVec.eq_of_toNat_eq
  simp [respOfSlot]
  omega

theorem respSlot_respOfSlot (i : Nat) : respSlot (respOfSlot i) = BitVec.ofNat 16 i := by
  simp only [respSlot, respOfSlot]
  ext k hk
  simp [hk]
  grind

theorem respOfRead_eq (h : Bool) (x : Byte) :
    respOfRead h x = BitVec.ofNat 32 ((if h then 0x100 else 0) + x.toNat) := by
  apply BitVec.eq_of_toNat_eq
  have hx := x.isLt
  have ha : (BitVec.ofBool h ++ x).toNat = (if h then 0x100 else 0) + x.toNat := by
    rw [BitVec.toNat_append, ← Nat.shiftLeft_add_eq_or_of_lt hx]
    cases h <;> simp
  rw [respOfRead, BitVec.toNat_setWidth, ha, BitVec.toNat_ofNat]

@[simp] theorem respHasData_respOfRead (h : Bool) (x : Byte) : respHasData (respOfRead h x) = h := by
  rw [respHasData, respOfRead, BitVec.getLsbD_setWidth, BitVec.getLsbD_append]
  simp

/-! ## The port window -/

theorem inWindow_eq_false {p : Params} {addr : Nat} :
    inWindow p addr = false ↔ addr < p.blockBase ∨ p.blockBase + 0x10 ≤ addr := by
  simp only [inWindow, decide_eq_false_iff_not]
  omega

/-- In the window of an aligned block only a misaligned address names no port register. -/
theorem portRegAt_eq_none {p : Params} {addr : Nat} (hp : p.blockBase % 4 = 0)
    (hw : inWindow p addr = true) (h : portRegAt p addr = none) : addr % 4 ≠ 0 := by
  simp only [inWindow, decide_eq_true_eq] at hw
  intro hm
  have ha : addr = p.blockBase ∨ addr = p.blockBase + 0x4 ∨ addr = p.blockBase + 0x8 ∨
      addr = p.blockBase + 0xC := by omega
  rcases ha with rfl | rfl | rfl | rfl <;> simp [portRegAt, PortReg.offset] at h

/-! ## Slots -/

@[simp] theorem State.slot_writeSlot_self (s : State) (b : Buf) (i : Nat) (v : Byte) :
    (s.writeSlot b i v).slot b i = v := by
  simp [State.slot, State.writeSlot]

theorem State.slot_writeSlot_other (s : State) {b c : Buf} {i j : Nat} (v : Byte) (h : c ≠ b ∨ j ≠ i) :
    (s.writeSlot b i v).slot c j = s.slot c j := by
  by_cases hc : c = b
  · subst hc
    have hj : j ≠ i := h.resolve_left (fun h => h rfl)
    simp [State.slot, State.writeSlot, Memory.read_write_other _ _ _ hj]
  · exact State.slot_congr (by simp) (State.ring_writeSlot_other s i v hc) j

/-- Replacing a ring by one with the same storage leaves every slot as it was. -/
theorem State.slot_setRing_of_store (s : State) {b : Buf} {r : Ring} (h : r.store = (s.ring b).store)
    (c : Buf) (i : Nat) : (s.setRing b r).slot c i = s.slot c i := by
  by_cases hc : c = b
  · subst hc
    simp [State.slot, h]
  · exact State.slot_congr (by simp) (State.ring_setRing_other s r hc) i

theorem memRead_ok {b : Buf} {i : Nat} {s : State} (h : i ≤ s.params.last) :
    memRead b i s = .ok (s.slot b i) := by
  simp [memRead, h]

theorem memWrite_ok {b : Buf} {i : Nat} {v : Byte} {s : State} (h : i ≤ s.params.last) :
    memWrite b i v s = .ok (s.writeSlot b i v) := by
  simp [memWrite, h]

/-- The only way a slot access answers: the slot exists. -/
theorem memWrite_eq_ok {b : Buf} {i : Nat} {v : Byte} {s t : State} :
    memWrite b i v s = .ok t ↔ i ≤ s.params.last ∧ t = s.writeSlot b i v := by
  unfold memWrite
  split <;> simp_all [eq_comm]

/-! ## Primitives -/

@[simp] theorem reserve_fst (b : Buf) (s : State) : (reserve b s).1 = (s.ring b).wc := rfl

theorem reserve_snd (b : Buf) (s : State) :
    (reserve b s).2 = s.setRing b { s.ring b with wc := (s.ring b).wcAfterReserve s.params } := rfl

/-- Reserve writes no storage. -/
theorem slot_reserve (b c : Buf) (s : State) (i : Nat) : (reserve b s).2.slot c i = s.slot c i := by
  rw [reserve_snd]
  exact State.slot_setRing_of_store s (by rfl) c i

/-- The state Push leaves. -/
theorem push_ok {b : Buf} {v : Byte} {s : State} (h : (s.ring b).wc ≤ s.params.last) :
    push b v s = .ok ((reserve b s).2.writeSlot b (s.ring b).wc v) := by
  simp [push, store, memWrite, reserve_snd, h]

/-- The only way Push answers: the slot it reserves exists. -/
theorem push_eq_ok {b : Buf} {v : Byte} {s t : State} :
    push b v s = .ok t ↔
      (s.ring b).wc ≤ s.params.last ∧ t = (reserve b s).2.writeSlot b (s.ring b).wc v := by
  simp [push, store, memWrite_eq_ok, reserve_snd]

theorem Ring.isEmpty_iff (r : Ring) : r.isEmpty = true ↔ r.rc = r.wc := by
  simp [Ring.isEmpty]

/-- Read on an empty ring: no data, the byte at the read cursor, nothing changed. -/
theorem readByte_empty {b : Buf} {s : State} (h : (s.ring b).rc ≤ s.params.last)
    (he : (s.ring b).isEmpty = true) :
    readByte b s = .ok (false, s.slot b (s.ring b).rc, s) := by
  simp [readByte, memRead_ok h, he]

/-- Read on a ring with data: the byte at the read cursor, its slot cleared, the cursor moved on. -/
theorem readByte_data {b : Buf} {s : State} (h : (s.ring b).rc ≤ s.params.last)
    (he : (s.ring b).isEmpty = false) :
    readByte b s = .ok (true, s.slot b (s.ring b).rc,
      (s.writeSlot b (s.ring b).rc 0#8).setRing b
        { (s.writeSlot b (s.ring b).rc 0#8).ring b with rc := succ s.params (s.ring b).rc }) := by
  simp [readByte, memRead_ok h, memWrite_ok h, he]

/-- The only ways Read answers. -/
theorem readByte_cases {b : Buf} {s t : State} {h : Bool} {x : Byte}
    (hr : readByte b s = .ok (h, x, t)) :
    (s.ring b).rc ≤ s.params.last ∧ x = s.slot b (s.ring b).rc ∧
      ((h = false ∧ (s.ring b).isEmpty = true ∧ t = s) ∨
        (h = true ∧ (s.ring b).isEmpty = false ∧
          t = (s.writeSlot b (s.ring b).rc 0#8).setRing b
            { (s.writeSlot b (s.ring b).rc 0#8).ring b with rc := succ s.params (s.ring b).rc })) := by
  by_cases hc : (s.ring b).rc ≤ s.params.last
  · cases he : (s.ring b).isEmpty
    · rw [readByte_data hc he] at hr
      simp only [Except.ok.injEq, Prod.mk.injEq] at hr
      obtain ⟨rfl, rfl, rfl⟩ := hr
      exact ⟨hc, rfl, .inr ⟨rfl, rfl, rfl⟩⟩
    · rw [readByte_empty hc he] at hr
      simp only [Except.ok.injEq, Prod.mk.injEq] at hr
      obtain ⟨rfl, rfl, rfl⟩ := hr
      exact ⟨hc, rfl, .inl ⟨rfl, rfl, rfl⟩⟩
  · simp [readByte, memRead, hc] at hr

theorem finish_eq_next {after : State → State} {e : Except Fault State} {t : State} :
    finish after e = .next t ↔ ∃ u, e = .ok u ∧ t = after u := by
  cases e <;> simp [finish, eq_comm]

@[simp] theorem finish_ok (after : State → State) (u : State) : finish after (.ok u) = .next (after u) := rfl

@[simp] theorem finish_error (after : State → State) (f : Fault) :
    finish after (.error f) = .fault f := rfl

/-! ## Recording a fault -/

@[simp] theorem faultRecorded_faultWord (c : FaultCode) : faultRecorded (faultWord c) = true := by
  cases c <;> decide

/-- All that recording a fault does. -/
theorem raiseFault_eq (c : FaultCode) (w : Word) (s : State) :
    raiseFault c w s =
      { s with
        faultReg := if faultRecorded s.faultReg then s.faultReg else faultWord c
        fcmd := if faultRecorded s.faultReg then s.fcmd else w
        resp := 0#32 } := by
  unfold raiseFault
  split <;> rfl

@[simp] theorem raiseFault_ring (c : FaultCode) (w : Word) (s : State) (b : Buf) :
    (raiseFault c w s).ring b = s.ring b := by
  rw [raiseFault_eq]
  cases b <;> rfl

@[simp] theorem raiseFault_slot (c : FaultCode) (w : Word) (s : State) (b : Buf) (i : Nat) :
    (raiseFault c w s).slot b i = s.slot b i :=
  State.slot_congr (by rw [raiseFault_eq]) (raiseFault_ring c w s b) i

/-! ## Device accesses -/

theorem devPopRx_eq_some {s t : State} {v : Byte} :
    devPopRx s = some (v, t) ↔ ∃ rest, s.rxf = v :: rest ∧ t = { s with rxf := rest } := by
  unfold devPopRx
  split <;> simp_all [eq_comm]

theorem devPopRx_eq_none {s : State} : devPopRx s = none ↔ s.rxf = [] := by
  unfold devPopRx
  split <;> simp_all

end Sys2Proof.Machine
end

