-- ==== Sys2Proof/Laws/Inv.lean ====
section
/-! SUPPORT. What the invariant needs of each shared operation: the ring primitives keep a ring well-formed
and leave the rest of the state alone. -/
namespace Sys2Proof.Machine

/-- Well-formedness of a ring depends on the parameters, the reset's draw and the ring alone. -/
theorem ringWf_congr {s t : State} {b : Buf} (hp : t.params = s.params) (hn : t.resetNo = s.resetNo)
    (hr : t.ring b = s.ring b) : ringWf t b ↔ ringWf s b := by
  simp only [ringWf, State.unlisted, hp, hn, hr]

theorem ringWf_writeSlot {s : State} {b c : Buf} {i : Nat} {v : Byte} (hi : i ≤ s.params.last)
    (h : ringWf s c) : ringWf (s.writeSlot b i v) c := by
  by_cases hc : c = b
  · subst hc
    obtain ⟨h1, h2, h3, h4⟩ := h
    refine ⟨by simpa using h1, by simpa using h2, ?_, ?_⟩
    · simpa [State.writeSlot] using Memory.wf_write i v h3
    · intro d hd
      simp only [State.writeSlot, State.ring_setRing_self] at hd
      rcases Memory.mem_write hd with ⟨rfl, _⟩ | hd
      · simpa using hi
      · simpa using h4 d hd
  · exact (ringWf_congr (by simp) (by simp) (State.ring_writeSlot_other s i v hc)).mpr h

theorem ringWf_setRing {s : State} {b c : Buf} {rc wc : Nat} (hr : rc ≤ s.params.last)
    (hw : wc ≤ s.params.last) (h : ringWf s c) :
    ringWf (s.setRing b { store := (s.ring b).store, rc := rc, wc := wc }) c := by
  by_cases hc : c = b
  · subst hc
    obtain ⟨_, _, h3, h4⟩ := h
    exact ⟨by simpa using hr, by simpa using hw, by simpa using h3, by simpa using h4⟩
  · exact (ringWf_congr (by simp) (by simp) (State.ring_setRing_other s _ hc)).mpr h

theorem ringWf_reserve {s : State} {b c : Buf} (hb : ringWf s b) (h : ringWf s c) :
    ringWf (reserve b s).2 c :=
  ringWf_setRing hb.1 (Ring.wcAfterReserve_le_last hb.2.1) h

/-- Push answers in a state whose ring is well-formed, and keeps every ring well-formed. -/
theorem push_ringWf {s t : State} {b c : Buf} {v : Byte} (hb : ringWf s b) (h : ringWf s c)
    (hp : push b v s = .ok t) : ringWf t c := by
  obtain ⟨hw, rfl⟩ := push_eq_ok.mp hp
  exact ringWf_writeSlot (by simpa [reserve_snd] using hw) (ringWf_reserve hb h)

theorem store_ringWf {s t : State} {b c : Buf} {i : Nat} {v : Byte} (h : ringWf s c)
    (hs : store b i v s = .ok t) : ringWf t c := by
  obtain ⟨hi, rfl⟩ := memWrite_eq_ok.mp hs
  exact ringWf_writeSlot hi h

/-- Read keeps every ring well-formed. -/
theorem readByte_ringWf {s t : State} {b c : Buf} {h : Bool} {x : Byte} (hb : ringWf s b)
    (hc : ringWf s c) (hr : readByte b s = .ok (h, x, t)) : ringWf t c := by
  obtain ⟨hrc, _, ⟨_, _, rfl⟩ | ⟨_, _, rfl⟩⟩ := readByte_cases hr
  · exact hc
  · have hw : ∀ d, ringWf s d → ringWf (s.writeSlot b (s.ring b).rc 0#8) d :=
      fun d hd => ringWf_writeSlot hrc hd
    exact ringWf_setRing (by simpa using succ_le_last hrc) (by simpa using hb.2.1) (hw c hc)

/-- What a primitive leaves as it was: every field but the rings. -/
structure RingsOnly (s t : State) : Prop where
  model : modelSame s t
  seq : seqSame s t
  resp : t.resp = s.resp
  fault : faultSame s t
  env : envSame s t
  task : taskSame s t

theorem RingsOnly.writeSlot (s : State) (b : Buf) (i : Nat) (v : Byte) :
    RingsOnly s (s.writeSlot b i v) := by
  cases b <;> constructor <;> (try constructor) <;> (repeat' constructor)

theorem RingsOnly.setRing (s : State) (b : Buf) (r : Ring) : RingsOnly s (s.setRing b r) := by
  cases b <;> constructor <;> (try constructor) <;> (repeat' constructor)

theorem push_ringsOnly {s t : State} {b : Buf} {v : Byte} (hp : push b v s = .ok t) : RingsOnly s t := by
  obtain ⟨_, rfl⟩ := push_eq_ok.mp hp
  cases b <;> constructor <;> (try constructor) <;> (repeat' constructor)

theorem store_ringsOnly {s t : State} {b : Buf} {i : Nat} {v : Byte} (hs : store b i v s = .ok t) :
    RingsOnly s t := by
  obtain ⟨_, rfl⟩ := memWrite_eq_ok.mp hs
  exact RingsOnly.writeSlot s b i v

theorem readByte_ringsOnly {s t : State} {b : Buf} {h : Bool} {x : Byte}
    (hr : readByte b s = .ok (h, x, t)) : RingsOnly s t := by
  obtain ⟨_, _, ⟨_, _, rfl⟩ | ⟨_, _, rfl⟩⟩ := readByte_cases hr
  · constructor <;> (repeat' constructor)
  · cases b <;> constructor <;> (try constructor) <;> (repeat' constructor)

/-- A primitive on one ring leaves the other as it was. -/
theorem push_other {s t : State} {b c : Buf} {v : Byte} (hp : push b v s = .ok t) (h : c ≠ b) :
    t.ring c = s.ring c := by
  obtain ⟨_, rfl⟩ := push_eq_ok.mp hp
  rw [State.ring_writeSlot_other _ _ _ h, reserve_snd, State.ring_setRing_other _ _ h]

theorem readByte_other {s t : State} {b c : Buf} {h : Bool} {x : Byte}
    (hr : readByte b s = .ok (h, x, t)) (hc : c ≠ b) : t.ring c = s.ring c := by
  obtain ⟨_, _, ⟨_, _, rfl⟩ | ⟨_, _, rfl⟩⟩ := readByte_cases hr
  · rfl
  · rw [State.ring_setRing_other _ _ hc, State.ring_writeSlot_other _ _ _ hc]

end Sys2Proof.Machine
end

