-- ==== Sys2Proof/Laws/Agents.lean ====
section
/-! SUPPORT. All that a step of the sequencer can do, as one relation; what recording a fault, a step of
the device and a list of moves do. -/
namespace Sys2Proof.Machine

/-! ## The sequencer -/

/-- The ways a sequencer step from `s` reaches `t` (41_isr_multiplexer R111 to R118). -/
inductive IsrMove (s t : State) : Prop where
  | entry (hp : s.ph = .idle) (hi : irq s = true) (ht : t = takeInterrupt s)
  | wait (hp : s.ph = .idle) (hi : irq s = false) (ht : t = s)
  | rxAck (hp : s.ph = .rxAck) (ht : t = { s with pRx := false, ph := .rxDrain })
  | rxByte (v : Byte) (rest : List Byte) (u : State) (hp : s.ph = .rxDrain) (hx : s.rxf = v :: rest)
      (hu : push .rx v { s with rxf := rest } = .ok u) (ht : t = u.setPh .rxDrain)
  | rxDone (hp : s.ph = .rxDrain) (hx : s.rxf = []) (ht : t = s.setPh .rxDelim)
  | rxDelim (u : State) (hp : s.ph = .rxDelim) (hu : push .rx delim s = .ok u)
      (ht : t = u.setPh (if s.latTx then .txAck else .idle))
  | txAck (hp : s.ph = .txAck) (ht : t = { s with pTx := false, ph := .txEmpty })
  | txEmpty (hp : s.ph = .txEmpty) (ht : t = s.setPh (if s.txf = [] then .txFill else .idle))
  | txFull (hp : s.ph = .txFill) (hl : s.txf.length = s.params.txDepth) (ht : t = s.setPh .idle)
  | txByte (x : Byte) (u : State) (hp : s.ph = .txFill) (hl : s.txf.length ≠ s.params.txDepth)
      (hu : readByte .tx s = .ok (true, x, u)) (ht : t = (devPushTx x (u.setItmp x)).setPh .txFill)
  | txNone (x : Byte) (u : State) (hp : s.ph = .txFill) (hl : s.txf.length ≠ s.params.txDepth)
      (hu : readByte .tx s = .ok (false, x, u)) (ht : t = (u.setItmp x).setPh .txMask)
  | txMask (hp : s.ph = .txMask) (ht : t = { s with txie := false, ph := .idle })

theorem isrMove_of_rxDrain {s t : State} (hp : s.ph = .rxDrain) (h : isrRxDrain s = .next t) :
    IsrMove s t := by
  unfold isrRxDrain at h
  cases hd : devPopRx s with
  | none =>
    simp only [hd] at h
    cases h
    exact .rxDone hp (devPopRx_eq_none.mp hd) rfl
  | some p =>
    obtain ⟨v, w⟩ := p
    simp only [hd] at h
    obtain ⟨rest, hr, rfl⟩ := devPopRx_eq_some.mp hd
    obtain ⟨u, hu, rfl⟩ := finish_eq_next.mp h
    exact .rxByte v rest u hp hr hu rfl

theorem isrMove_of_rxDelim {s t : State} (hp : s.ph = .rxDelim) (h : isrRxDelim s = .next t) :
    IsrMove s t := by
  obtain ⟨u, hu, rfl⟩ := finish_eq_next.mp h
  refine .rxDelim u hp hu ?_
  rw [(push_ringsOnly hu).seq.2.2.1]
  cases s.latTx <;> rfl

theorem isrMove_of_txFill {s t : State} (hp : s.ph = .txFill) (h : isrTxFill s = .next t) :
    IsrMove s t := by
  unfold isrTxFill at h
  by_cases hf : txff s = true
  · rw [if_pos hf] at h
    cases h
    exact .txFull hp (by simpa [txff] using hf) rfl
  · rw [if_neg hf] at h
    have hl : s.txf.length ≠ s.params.txDepth := by simpa [txff] using hf
    split at h
    · cases h
    · rename_i x u hu
      cases h
      exact .txByte x u hp hl hu rfl
    · rename_i x u hu
      cases h
      exact .txNone x u hp hl hu rfl

/-- All that a step of the sequencer does. -/
theorem isrStep_cases {s t : State} (h : isrStep s = .next t) : IsrMove s t := by
  unfold isrStep at h
  cases hp : s.ph <;> simp only [hp] at h
  · unfold isrIdle at h
    split at h <;> cases h
    · exact .entry hp (by assumption) rfl
    · exact .wait hp (by simp_all) rfl
  · cases h
    exact .rxAck hp rfl
  · exact isrMove_of_rxDrain hp h
  · exact isrMove_of_rxDelim hp h
  · cases h
    exact .txAck hp rfl
  · unfold isrTxEmpty at h
    by_cases he : s.txf = [] <;> simp [txfe, he] at h <;> exact .txEmpty hp (by simp [← h, he, returnFromIsr])
  · exact isrMove_of_txFill hp h
  · cases h
    exact .txMask hp rfl

/-! ## Recording a fault -/

/-- Recording a fault changes RESP, FAULT and FCMD only. -/
theorem raiseFault_frame (c : FaultCode) (w : Word) (s : State) :
    modelSame s (raiseFault c w s) ∧ seqSame s (raiseFault c w s) ∧ envSame s (raiseFault c w s) ∧
      taskSame s (raiseFault c w s) ∧ (raiseFault c w s).rx = s.rx ∧ (raiseFault c w s).tx = s.tx := by
  rw [raiseFault_eq]
  simp [modelSame, seqSame, envSame, taskSame]

/-- A fault already recorded stays. -/
theorem raiseFault_faultSame {s : State} (c : FaultCode) (w : Word) (h : faulted s) :
    faultSame s (raiseFault c w s) := by
  unfold faulted at h
  simp [faultSame, raiseFault, h]

/-! ## The device -/

/-- What no step of the device changes. -/
theorem deviceStep_frame {s t : State} {d : DeviceStep} (h : deviceStep d s = .next t) :
    modelSame s t ∧ seqSame s t ∧ faultSame s t ∧ taskSame s t ∧ t.resp = s.resp ∧ t.rx = s.rx ∧
      t.tx = s.tx := by
  cases d <;> simp only [deviceStep, deviceArrive, deviceDepart, deviceRaiseRx, deviceRaiseTx] at h
  · split at h <;> cases h
    simp [modelSame, seqSame, faultSame, taskSame]
  · split at h <;> cases h <;> simp [modelSame, seqSame, faultSame, taskSame]
  · cases h
    simp [modelSame, seqSame, faultSame, taskSame]
  · cases h
    simp [modelSame, seqSame, faultSame, taskSame]

/-! ## Lists of moves -/

@[simp] theorem runMoves_nil (s : State) : runMoves [] s = .next s := rfl

theorem runMoves_cons {a : Agent} {rest : List Agent} {s t : State} (h : agentStep a s = .next t) :
    runMoves (a :: rest) s = runMoves rest t := by
  simp [runMoves, h]

/-- A list of moves answers exactly when its first move does and the rest do after it. -/
theorem runMoves_cons_eq_next {a : Agent} {rest : List Agent} {s t : State} :
    runMoves (a :: rest) s = .next t ↔ ∃ u, agentStep a s = .next u ∧ runMoves rest u = .next t := by
  simp only [runMoves]
  cases agentStep a s <;> simp

theorem runMoves_append {l m : List Agent} {s t : State} (h : runMoves l s = .next t) :
    runMoves (l ++ m) s = runMoves m t := by
  induction l generalizing s with
  | nil =>
    cases h
    rfl
  | cons a l ih =>
    obtain ⟨u, hu, hr⟩ := runMoves_cons_eq_next.mp h
    rw [List.cons_append, runMoves_cons hu, ih hr]

end Sys2Proof.Machine
end

