-- ==== Sys2Proof/Laws/Codec.lean ====
section
/-! SUPPORT. The fields of a word and the word of the fields, each the inverse of the other; the bytes of a
word; the three masks of the opcode map; every command's fields are legal. -/
namespace Sys2Proof

theorem fieldsOf_wordOfFields (f : Fields) : fieldsOf (wordOfFields f) = f := by
  obtain ⟨op, rsv, b, slot, data⟩ := f
  simp only [fieldsOf, wordOfFields, Fields.mk.injEq]
  refine ⟨?_, ?_, ?_, ?_, ?_⟩ <;>
    · ext k hk
      simp
      grind

theorem wordOfFields_fieldsOf (w : Word) : wordOfFields (fieldsOf w) = w := by
  simp only [fieldsOf, wordOfFields]
  ext k hk
  simp
  grind

theorem wordOfFields_inj {f g : Fields} : wordOfFields f = wordOfFields g ↔ f = g :=
  ⟨fun h => by rw [← fieldsOf_wordOfFields f, h, fieldsOf_wordOfFields], fun h => h ▸ rfl⟩

theorem wordOfBytes_bytesOfWord (w : Word) :
    wordOfBytes (w.extractLsb' 0 8) (w.extractLsb' 8 8) (w.extractLsb' 16 8) (w.extractLsb' 24 8) = w := by
  simp only [wordOfBytes]
  ext k hk
  simp
  grind

theorem bytesOfWord_wordOfBytes (b0 b1 b2 b3 : Byte) :
    bytesOfWord (wordOfBytes b0 b1 b2 b3) = [b0, b1, b2, b3] := by
  simp only [bytesOfWord, wordOfBytes, List.cons.injEq, and_true]
  refine ⟨?_, ?_, ?_, ?_⟩ <;> (ext k hk; simp; grind)

theorem getLsbD_maskOpRsv (k : Nat) : (0xFE000000#32).getLsbD k = decide (25 ≤ k ∧ k < 32) := by
  by_cases h : k < 32
  · revert k
    decide
  · simp [BitVec.getLsbD_of_ge _ _ (Nat.le_of_not_lt h), h]

theorem getLsbD_maskAllButBData (k : Nat) : (0xFEFFFF00#32).getLsbD k = decide (8 ≤ k ∧ k < 32 ∧ k ≠ 24) := by
  by_cases h : k < 32
  · revert k
    decide
  · simp [BitVec.getLsbD_of_ge _ _ (Nat.le_of_not_lt h), h]

theorem getLsbD_maskAllButB (k : Nat) : (0xFEFFFFFF#32).getLsbD k = decide (k < 32 ∧ k ≠ 24) := by
  by_cases h : k < 32
  · revert k
    decide
  · simp [BitVec.getLsbD_of_ge _ _ (Nat.le_of_not_lt h), h]

/-- RB.STOR's mask keeps OP and RSV. -/
theorem and_maskOpRsv (f : Fields) :
    wordOfFields f &&& 0xFE000000#32 = wordOfFields ⟨f.op, f.rsv, 0#1, 0#16, 0#8⟩ := by
  apply BitVec.eq_of_getLsbD_eq
  intro k hk
  simp only [wordOfFields, BitVec.getLsbD_and, BitVec.getLsbD_or, BitVec.getLsbD_shiftLeft,
    BitVec.getLsbD_setWidth, getLsbD_maskOpRsv, BitVec.getLsbD_zero]
  grind

/-- RB.PUSH's mask keeps OP, RSV and SLOT. -/
theorem and_maskAllButBData (f : Fields) :
    wordOfFields f &&& 0xFEFFFF00#32 = wordOfFields ⟨f.op, f.rsv, 0#1, f.slot, 0#8⟩ := by
  apply BitVec.eq_of_getLsbD_eq
  intro k hk
  simp only [wordOfFields, BitVec.getLsbD_and, BitVec.getLsbD_or, BitVec.getLsbD_shiftLeft,
    BitVec.getLsbD_setWidth, getLsbD_maskAllButBData, BitVec.getLsbD_zero]
  grind

/-- The other masks keep all but B. -/
theorem and_maskAllButB (f : Fields) :
    wordOfFields f &&& 0xFEFFFFFF#32 = wordOfFields ⟨f.op, f.rsv, 0#1, f.slot, f.data⟩ := by
  apply BitVec.eq_of_getLsbD_eq
  intro k hk
  simp only [wordOfFields, BitVec.getLsbD_and, BitVec.getLsbD_or, BitVec.getLsbD_shiftLeft,
    BitVec.getLsbD_setWidth, getLsbD_maskAllButB, BitVec.getLsbD_zero]
  grind

@[simp] theorem bufOf_bit (b : Buf) : bufOf b.bit = b := by
  cases b <;> rfl

@[simp] theorem bit_bufOf (x : BitVec 1) : (bufOf x).bit = x := by
  revert x
  decide

theorem Instr.wellFormed_eq_true (i : Instr) : i.wellFormed = true := by
  cases i <;> simp [Instr.wellFormed, Instr.fields, Fields.wellFormed, Fields.opKnown, Fields.rsvZero,
    Fields.slotZero, Fields.dataZero]

end Sys2Proof
end

