-- ==== Sys2Proof/Laws/PerInstr.lean ====
section
/-! SUPPORT. Per command: its fields are legal, and its word selects the row of the opcode map that bears
its mnemonic (30_encoding R73, R76). -/
namespace Sys2Proof

/-- The command is legal, and its word selects its own row. -/
def Laws.Row.Statement (i : Instr) : Prop :=
  i.wellFormed = true ∧ ∃ r ∈ opcodeMap, r.mnemonic = i.mnemonic ∧ r.selects (encode i) = true

theorem Laws.Row.resv (b : Buf) : Laws.Row.Statement (.resv b) :=
  ⟨Instr.wellFormed_eq_true _, ⟨"RB.RESV", 0x10000000#32, 0xFEFFFFFF#32⟩, by decide, rfl, by
    cases b <;> decide⟩

theorem Laws.Row.stor (b : Buf) (slot : BitVec 16) (data : Byte) :
    Laws.Row.Statement (.stor b slot data) :=
  ⟨Instr.wellFormed_eq_true _, ⟨"RB.STOR", 0x20000000#32, 0xFE000000#32⟩, by decide, rfl, by
    simp only [Row.selects, encode, and_maskOpRsv, Instr.fields, beq_iff_eq]
    decide⟩

theorem Laws.Row.push (b : Buf) (data : Byte) : Laws.Row.Statement (.push b data) :=
  ⟨Instr.wellFormed_eq_true _, ⟨"RB.PUSH", 0x30000000#32, 0xFEFFFF00#32⟩, by decide, rfl, by
    simp only [Row.selects, encode, and_maskAllButBData, Instr.fields, beq_iff_eq]
    decide⟩

theorem Laws.Row.read (b : Buf) : Laws.Row.Statement (.read b) :=
  ⟨Instr.wellFormed_eq_true _, ⟨"RB.READ", 0x40000000#32, 0xFEFFFFFF#32⟩, by decide, rfl, by
    cases b <;> decide⟩

theorem Laws.Row.arm (src : Buf) : Laws.Row.Statement (.arm src) :=
  ⟨Instr.wellFormed_eq_true _, ⟨"IRQ.ARM", 0x50000000#32, 0xFEFFFFFF#32⟩, by decide, rfl, by
    cases src <;> decide⟩

end Sys2Proof
end

