-- ==== Sys2Proof/Laws/Ring.lean ====
section
/-! SUPPORT. The ring arithmetic over cursors in range: Visible, Full, Succ and the cursor after Reserve as
plain arithmetic (10_state R28, 40_ring_buffer R91, R95), and what Push and Read leave in each cursor and
each slot. -/
namespace Sys2Proof.Machine

/-! ## Cursor arithmetic -/

theorem Params.last_eq (p : Params) : p.last = p.cap - 1 := rfl

/-- Succ as arithmetic modulo C. -/
theorem succ_eq_mod {p : Params} {i : Nat} (hp : 2 ≤ p.cap) (h : i ≤ p.last) :
    succ p i = (i + 1) % p.cap := by
  rw [Params.last_eq] at h
  rw [show succ p i = if i = p.cap - 1 then 0 else i + 1 from rfl]
  by_cases e : i = p.cap - 1
  · rw [if_pos e, e, Nat.sub_add_cancel (by omega), Nat.mod_self]
  · rw [if_neg e, Nat.mod_eq_of_lt (by omega)]

theorem Ring.isFull_iff {p : Params} {r : Ring} :
    r.isFull p = true ↔ r.wc ≠ p.last ∧ r.wc + 1 = r.rc := by
  simp only [Ring.isFull, Ring.atEndWrap, Ring.next, succ]
  by_cases h : r.wc = p.last <;> simp [h]

/-- WC after Reserve, over the numbers. -/
theorem Ring.wcAfterReserve_eq (p : Params) (r : Ring) :
    r.wcAfterReserve p =
      if r.wc = p.cap - 1 then 0 else if r.wc + 1 ≠ r.rc then r.wc + 1 else r.wc := by
  simp only [Ring.wcAfterReserve, Ring.next, succ, Params.last, Params.first]
  split <;> simp_all

/-- Visible without integers, for cursors in range. -/
theorem Ring.visible_eq {p : Params} {r : Ring} (hr : r.rc ≤ p.last) (hw : r.wc ≤ p.last)
    (hp : 2 ≤ p.cap) :
    r.visible p = if r.rc ≤ r.wc then r.wc - r.rc else r.wc + p.cap - r.rc := by
  rw [Params.last_eq] at hr hw
  unfold Ring.visible
  split
  · rw [Int.emod_eq_of_lt (by omega) (by omega)]
    omega
  · rw [← Int.add_emod_right, Int.emod_eq_of_lt (by omega) (by omega)]
    omega

/-- Visible depends on the two cursors alone. -/
theorem Ring.visible_congr {p : Params} {r q : Ring} (h1 : r.rc = q.rc) (h2 : r.wc = q.wc) :
    r.visible p = q.visible p := by
  simp [Ring.visible, h1, h2]

/-! ## Push and Read, slot by slot -/

theorem push_rc {s t : State} {b : Buf} {v : Byte} (h : push b v s = .ok t) :
    (t.ring b).rc = (s.ring b).rc := by
  obtain ⟨_, rfl⟩ := push_eq_ok.mp h
  simp [reserve_snd]

theorem push_wc {s t : State} {b : Buf} {v : Byte} (h : push b v s = .ok t) :
    (t.ring b).wc = (s.ring b).wcAfterReserve s.params := by
  obtain ⟨_, rfl⟩ := push_eq_ok.mp h
  simp [reserve_snd]

theorem push_slot {s t : State} {b : Buf} {v : Byte} (h : push b v s = .ok t) :
    t.slot b (s.ring b).wc = v := by
  obtain ⟨_, rfl⟩ := push_eq_ok.mp h
  simp

theorem push_slot_other {s t : State} {b c : Buf} {v : Byte} {i : Nat} (h : push b v s = .ok t)
    (hi : c ≠ b ∨ i ≠ (s.ring b).wc) : t.slot c i = s.slot c i := by
  obtain ⟨_, rfl⟩ := push_eq_ok.mp h
  rw [State.slot_writeSlot_other _ _ hi, slot_reserve]

/-- Push on two states that agree on the ring leaves the same ring. -/
theorem push_congr {s u t : State} {b : Buf} {v : Byte} (h : push b v s = .ok t)
    (hp : u.params = s.params) (hn : u.resetNo = s.resetNo) (hr : u.ring b = s.ring b) :
    ∃ w, push b v u = .ok w ∧ w.ring b = t.ring b := by
  obtain ⟨h1, rfl⟩ := push_eq_ok.mp h
  exact ⟨_, push_ok (by rw [hr, hp]; exact h1), by
    simp [reserve_snd, State.writeSlot, State.unlisted, hr, hp, hn]⟩

/-- All that a Read with data leaves in its ring. -/
theorem readByte_true {s t : State} {b : Buf} {x : Byte} (h : readByte b s = .ok (true, x, t)) :
    (s.ring b).rc ≠ (s.ring b).wc ∧ x = s.slot b (s.ring b).rc ∧
      (t.ring b).rc = succ s.params (s.ring b).rc ∧ (t.ring b).wc = (s.ring b).wc ∧
      t.slot b (s.ring b).rc = 0x00#8 ∧ ∀ a, a ≠ (s.ring b).rc → t.slot b a = s.slot b a := by
  obtain ⟨_, hx, ⟨hh, _, _⟩ | ⟨_, he, rfl⟩⟩ := readByte_cases h
  · cases hh
  · refine ⟨by simpa [Ring.isEmpty] using he, hx, by simp, by simp, ?_, fun a ha => ?_⟩
    · rw [State.slot_setRing_of_store _ (by rfl)]
      simp
    · rw [State.slot_setRing_of_store _ (by rfl)]
      exact State.slot_writeSlot_other _ _ (.inr ha)

/-- A Read without data changes nothing. -/
theorem readByte_false {s t : State} {b : Buf} {x : Byte} (h : readByte b s = .ok (false, x, t)) :
    (s.ring b).rc = (s.ring b).wc ∧ x = s.slot b (s.ring b).rc ∧ t = s := by
  obtain ⟨_, hx, ⟨_, he, rfl⟩ | ⟨hh, _, _⟩⟩ := readByte_cases h
  · exact ⟨by simpa [Ring.isEmpty] using he, hx, rfl⟩
  · cases hh

/-- Read on two states that agree on the ring answers the same and leaves the same ring. -/
theorem readByte_congr {s u t : State} {b : Buf} {y : Bool} {x : Byte}
    (h : readByte b s = .ok (y, x, t)) (hp : u.params = s.params) (hn : u.resetNo = s.resetNo)
    (hr : u.ring b = s.ring b) : ∃ w, readByte b u = .ok (y, x, w) ∧ w.ring b = t.ring b := by
  obtain ⟨hc, hx, ⟨rfl, he, rfl⟩ | ⟨rfl, he, rfl⟩⟩ := readByte_cases h
  · refine ⟨u, ?_, hr⟩
    rw [readByte_empty (by rw [hr, hp]; exact hc) (by rw [hr]; exact he), hr,
      State.slot_congr hn hr, hx]
  · refine ⟨_, by rw [readByte_data (by rw [hr, hp]; exact hc) (by rw [hr]; exact he), hr,
      State.slot_congr hn hr, hx], ?_⟩
    simp [State.writeSlot, State.unlisted, hr, hn, hp]

end Sys2Proof.Machine
end

