-- ==== Sys2Proof/Tests/Slice0.lean ====
section
/-! SUPPORT. Tests: expected results from the spec's own tables, examples and vectors (named in each
comment), and, for each statement of Certificates/Slice0 that has hypotheses, states and operands that meet
them. -/
open Sys2Proof Sys2Proof.Machine

/-! ## Well-formedness: one ill-formed term for each check -/

/-- 95 L2.C2: OP 0x7 is reserved. -/
theorem test_wf_refuses_reserved_op : Fields.wellFormed ⟨7, 0, 0, 0, 0⟩ = false := by decide

/-- 95 L2.C4: RSV ≠ 0. -/
theorem test_wf_refuses_reserved_bits : Fields.wellFormed ⟨1, 1, 0, 0, 0⟩ = false := by decide

/-- 95 L2.C6: SLOT ≠ 0 in RB.PUSH. -/
theorem test_wf_refuses_slot : Fields.wellFormed ⟨3, 0, 1, 1, 0x41⟩ = false := by decide

/-- 95 L2.C5: DATA ≠ 0 in RB.RESV. -/
theorem test_wf_refuses_data : Fields.wellFormed ⟨1, 0, 1, 0, 1⟩ = false := by decide

/-- 95 L2.B3: RB.STOR may carry both. -/
theorem test_wf_accepts_stor : Fields.wellFormed ⟨2, 0, 1, 1, 0x69⟩ = true := by decide

/-! ## Decoding: words cut by hand from 30_encoding R71 to R76 and 95 L2.B, L2.C -/

theorem test_decode_resv :
    decodeTableWord 32 0b0001_000_1_0000000000000000_00000000 = some (.resv .tx) ∧
      decodeTableWord 32 0b0001_000_0_0000000000000000_00000000 = some (.resv .rx) := by decide

theorem test_decode_stor :
    decodeTableWord 32 0b0010_000_1_0000000000000001_01101001 = some (.stor .tx 1 0x69) ∧
      decodeTableWord 32 0b0010_000_0_1000000000000011_10000001 = some (.stor .rx 0x8003 0x81) := by decide

theorem test_decode_push :
    decodeTableWord 32 0b0011_000_1_0000000000000000_01000001 = some (.push .tx 0x41) ∧
      decodeTableWord 32 0b0011_000_0_0000000000000000_10000001 = some (.push .rx 0x81) := by decide

theorem test_decode_read :
    decodeTableWord 32 0b0100_000_0_0000000000000000_00000000 = some (.read .rx) ∧
      decodeTableWord 32 0b0100_000_1_0000000000000000_00000000 = some (.read .tx) := by decide

theorem test_decode_arm :
    decodeTableWord 32 0b0101_000_0_0000000000000000_00000000 = some (.arm .rx) ∧
      decodeTableWord 32 0b0101_000_1_0000000000000000_00000000 = some (.arm .tx) := by decide

/-- 95 L2.C1 to C8 and C14: each is refused, by the name of what is wrong. -/
theorem test_decode_refuses :
    decode 0x00000000 = .error .reservedOp ∧ decode 0x70000000 = .error .reservedOp ∧
      decode 0xF1000000 = .error .reservedOp ∧ decode 0x12000000 = .error .reservedBits ∧
      decode 0x11000001 = .error .dataNotZero ∧ decode 0x31000141 = .error .slotNotZero ∧
      decode 0x50000100 = .error .slotNotZero ∧ decode 0x40000001 = .error .dataNotZero ∧
      decode 0x22040000 = .error .reservedBits := by decide

/-- 20_memory R54: the byte at the lowest address holds bits [7:0]. -/
theorem test_byte_order :
    decodeBytes [0x69, 0x01, 0x00, 0x21, 0xAA] = .ok (.stor .tx 1 0x69, [0xAA]) ∧
      decodeBytes [0x69, 0x01, 0x00] = .error .truncated := by decide

/-! ## Text: 30_encoding R78 to R80 and the programs of 95 L3 -/

theorem test_disassemble :
    disassemble 0x41000000 = "rb.read tx" ∧ disassemble 0x21000169 = "rb.stor tx, 1, 0x69" ∧
      disassemble 0x2103FF00 = "rb.stor tx, 1023, 0x00" ∧ disassemble 0x70000000 = ".word 0x70000000" := by
  decide

/-- 95 P1 and P4: 'i' is 0x69 and 'a' is 0x61. -/
theorem test_assemble_line :
    assembleLine "rb.stor tx, 1, 0x69   ; 'i'" = some [.cmd 0x21000169#32] ∧
      assembleLine "rb.push tx, 'a'" = some [.cmd 0x31000061#32] ∧
      assembleLine "irq.arm rx            ; boot step 3" = some [.cmd 0x50000000#32] ∧
      assembleLine "rb.stor tx, 65536, 0" = none ∧ assembleLine "rb.push tx, 256" = none := by
  decide

/-- 30_encoding R79: `uart.send` enqueues and then arms. -/
theorem test_assemble_uart_send :
    assembleLine "uart.send 'h', 0x69" =
      some [.cmd 0x11000000#32, .storAtResp 0x68, .cmd 0x11000000#32, .storAtResp 0x69,
        .cmd 0x51000000#32] := by
  decide

/-! ## Small states -/

namespace Sys2Proof.Tests

/-- C = 4, both FIFOs 16 deep, the block at 0x1000. -/
def p4 : Params := ⟨4, 16, 16, 0x1000⟩

/-- C = 1024, as the vectors L2.B and L2.C have it. -/
def p1024 : Params := ⟨1024, 16, 16, 0x1000⟩

/-- The launch state of C = 4. -/
def s4 : State := State.launch p4 [] []

/-- The launch state of C = 1024. -/
def s1024 : State := State.launch p1024 [] []

/-- A ring at these cursors, every slot at its draw. -/
def at' (rc wc : Nat) : Ring := ⟨[], rc, wc⟩

/-- `s` with these two rings. -/
def withRings (rx tx : Ring) (s : State) : State := { s with rx := rx, tx := tx }

theorem p4_wf : p4.wf := by decide

theorem resp_zero : (0#32).extractLsb' 16 16 = 0#16 := by decide

/-- A state whose rings list nothing meets the invariant when its other parts do. -/
theorem inv_of_bare (s : State) (hp : s.params.wf)
    (hrx : s.rx.store = [] ∧ s.rx.rc ≤ s.params.last ∧ s.rx.wc ≤ s.params.last)
    (htx : s.tx.store = [] ∧ s.tx.rc ≤ s.params.last ∧ s.tx.wc ≤ s.params.last)
    (hr : s.resp.extractLsb' 16 16 = 0#16) (hf : s.faultReg = 0#32 ∧ s.fcmd = 0#32) (hph : phaseWf s)
    (h1 : s.rxf.length ≤ s.params.rxDepth) (h2 : s.txf.length ≤ s.params.txDepth) : s.Inv := by
  refine ⟨hp, fun b => ?_, hr, .inl hf, hph, h1, h2⟩
  cases b
  · exact ⟨hrx.2.1, hrx.2.2, by simp [Memory.wf, State.ring, hrx.1], by simp [State.ring, hrx.1]⟩
  · exact ⟨htx.2.1, htx.2.2, by simp [Memory.wf, State.ring, htx.1], by simp [State.ring, htx.1]⟩

/-- The small states meet the invariant, at any cursors in range and in any phase. -/
theorem s4_inv (ph : Phase) (a b c d : Nat) (h : a ≤ 3 ∧ b ≤ 3 ∧ c ≤ 3 ∧ d ≤ 3) :
    ({ withRings (at' a b) (at' c d) s4 with ph := ph, latRx := true, latTx := true } : State).Inv :=
  inv_of_bare _ p4_wf ⟨rfl, h.1, h.2.1⟩ ⟨rfl, h.2.2.1, h.2.2.2⟩ resp_zero ⟨rfl, rfl⟩
    (by cases ph <;> trivial) (Nat.zero_le 16) (Nat.zero_le 16)

end Sys2Proof.Tests

open Sys2Proof.Tests

/-! ## The commands: 95 L2.B and L2.C, and the examples of 40_ring_buffer -/

/-- L2.B2: RB.RESV at WC = 1 answers slot 1 and moves WC to 2; L2.B12: a full ring answers WC and stays. -/
theorem test_resv :
    (∃ t, exec (.resv .tx) (withRings (at' 0 0) (at' 0 1) s1024) = .next t ∧ t.resp = 1#32 ∧ t.tx.wc = 2) ∧
    ∃ t, exec (.resv .tx) (withRings (at' 0 0) (at' 5 4) s1024) = .next t ∧ t.resp = 4#32 ∧ t.tx.wc = 4 :=
  ⟨⟨_, rfl, by decide, rfl⟩, _, rfl, by decide, rfl⟩

/-- L2.B13: at END the cursor wraps to BEGIN although RC is there, which empties the ring. -/
theorem test_resv_end_wrap :
    ∃ t, exec (.resv .tx) (withRings (at' 0 0) (at' 0 1023) s1024) = .next t ∧ t.resp = 0x3FF#32 ∧
      t.tx.wc = 0 ∧ t.tx.isEmpty = true :=
  ⟨_, rfl, by decide, rfl, rfl⟩

/-- L2.B3 and L2.B11: RB.STOR writes the slot named, END included; the cursors stay. -/
theorem test_stor :
    (∃ t, exec (.stor .tx 1 0x69) s1024 = .next t ∧ t.slot .tx 1 = 0x69 ∧ t.resp = 0#32 ∧ t.tx.wc = 0) ∧
    ∃ t, exec (.stor .tx 1023 0x00) s1024 = .next t ∧ t.slot .tx 1023 = 0x00 ∧ t.faultReg = 0#32 :=
  ⟨⟨_, rfl, State.slot_writeSlot_self s1024 .tx 1 0x69, rfl, rfl⟩, _, rfl,
    State.slot_writeSlot_self s1024 .tx 1023 0x00, rfl⟩

/-- L2.C12 and L2.C15: SLOT 1024 is E_SLOT with C = 1024, legal with C = 65536. -/
theorem test_stor_out_of_range :
    (∃ t, exec (.stor .tx 1024 0) s1024 = .next t ∧ t.faultReg = 0x80000003#32 ∧ t.fcmd = 0x21040000#32) ∧
    ∃ t, exec (.stor .tx 1024 0) (State.launch ⟨65536, 16, 16, 0⟩ [] []) = .next t ∧ t.faultReg = 0#32 :=
  ⟨⟨_, rfl, by decide, by decide⟩, _, rfl, rfl⟩

/-- L2.B4: RB.PUSH stores at WC and moves it on; L2.4: at END it wraps to BEGIN. -/
theorem test_push :
    (∃ t, exec (.push .tx 0x41) s1024 = .next t ∧ t.slot .tx 0 = 0x41 ∧ t.tx.wc = 1 ∧ t.resp = 0#32) ∧
    ∃ t, exec (.push .tx 0x41) (withRings (at' 0 0) (at' 0 3) s4) = .next t ∧ t.slot .tx 3 = 0x41 ∧
      t.tx.wc = 0 ∧ t.tx.rc = 0 :=
  ⟨⟨_, rfl, State.slot_writeSlot_self _ .tx 0 0x41, rfl, rfl⟩, _, rfl,
    State.slot_writeSlot_self _ .tx 3 0x41, rfl, rfl⟩

/-- L2.C10: RB.PUSH rx is E_OWNER, and nothing is pushed. -/
theorem test_push_rx :
    ∃ t, exec (.push .rx 0x41) s1024 = .next t ∧ t.faultReg = 0x80000002#32 ∧ t.fcmd = 0x30000041#32 ∧
      t.rx = s1024.rx :=
  ⟨_, rfl, by decide, by decide, rfl⟩

/-- L2.B6 and L2.B7: RB.READ answers has-data over the byte and moves RC on, wrapping after END. -/
theorem test_read :
    (∃ t, exec (.read .rx) (withRings ⟨[(0, 0x61)], 0, 1⟩ (at' 0 0) s1024) = .next t ∧
      t.resp = 0x161#32 ∧ t.rx.rc = 1 ∧ t.slot .rx 0 = 0x00) ∧
    ∃ t, exec (.read .rx) (withRings ⟨[(1023, 0x09)], 1023, 0⟩ (at' 0 0) s1024) = .next t ∧
      t.resp = 0x109#32 ∧ t.rx.rc = 0 := by
  refine ⟨⟨_, rfl, by decide, rfl, ?_⟩, _, rfl, by decide, rfl⟩
  exact State.slot_writeSlot_self (withRings ⟨[(0, 0x61)], 0, 1⟩ (at' 0 0) s1024) .rx 0 0x00

/-- L2.7: a Read of an empty ring answers has-data 0 with the byte there, and moves nothing. -/
theorem test_read_empty :
    ∃ t, exec (.read .rx) (withRings ⟨[(2, 0x6D)], 2, 2⟩ (at' 0 0) s4) = .next t ∧
      t.resp = 0x06D#32 ∧ t.rx = ⟨[(2, 0x6D)], 2, 2⟩ :=
  ⟨_, rfl, by decide, rfl⟩

/-- L2.B9: IRQ.ARM tx with P_TX = 1 raises the line at once. -/
theorem test_arm :
    (∃ t, exec (.arm .tx) { s1024 with pTx := true } = .next t ∧ irq t = true ∧ t.rxie = false) ∧
    ∃ t, exec (.arm .rx) s1024 = .next t ∧ t.rxie = true ∧ t.txie = false :=
  ⟨⟨_, rfl, by decide, rfl⟩, _, rfl, rfl, rfl⟩

/-- L2.C1, L2.C9, L2.C13 (E_OWNER before E_SLOT) and L2.C14 (E_ILLEGAL first). -/
theorem test_execute_faults :
    (∃ t, execute 0x00000000 s1024 = .next t ∧ t.faultReg = 0x80000001#32 ∧ t.fcmd = 0#32) ∧
    (∃ t, execute 0x41000000 s1024 = .next t ∧ t.faultReg = 0x80000002#32 ∧ t.fcmd = 0x41000000#32) ∧
    (∃ t, execute 0x20040000 s1024 = .next t ∧ t.faultReg = 0x80000002#32) ∧
    ∃ t, execute 0x22040000 s1024 = .next t ∧ t.faultReg = 0x80000001#32 :=
  ⟨⟨_, rfl, by decide, rfl⟩, ⟨_, rfl, by decide, by decide⟩, ⟨_, rfl, by decide⟩, _, rfl, by decide⟩

/-- L2.C16: the first fault stays; a later one changes RESP only. -/
theorem test_sticky_fault :
    ∃ t, execute 0x41000000 { s1024 with faultReg := 0x80000001#32, resp := 7#32 } = .next t ∧
      t.faultReg = 0x80000001#32 ∧ t.fcmd = 0#32 ∧ t.resp = 0#32 :=
  ⟨_, rfl, by decide, rfl, rfl⟩

/-! ## The sequencer, one step each: 95 L2.D -/

/-- L2.11 and L2.14: Entry with the RX source pending; with both, both latches are set. -/
theorem test_entry :
    (∃ t, isrStep { s4 with rxie := true, pRx := true } = .next t ∧ t.ph = .rxAck ∧ t.latTx = false) ∧
    ∃ t, isrStep { s4 with rxie := true, pRx := true, txie := true, pTx := true } = .next t ∧
      t.ph = .rxAck ∧ t.latRx = true ∧ t.latTx = true :=
  ⟨⟨_, rfl, rfl, rfl⟩, _, rfl, rfl, rfl, rfl⟩

/-- L2.15: a masked source is not latched. -/
theorem test_entry_masked :
    ∃ t, isrStep { s4 with pRx := true, txie := true, pTx := true } = .next t ∧ t.ph = .txAck ∧
      t.latRx = false ∧ t.latTx = true :=
  ⟨_, rfl, rfl, rfl, rfl⟩

/-- L2.11: RX_DRAIN moves one byte; with none left it goes on to the delimiter. -/
theorem test_rx_drain :
    (∃ t, isrStep { s4 with ph := .rxDrain, rxf := [0x61, 0x62] } = .next t ∧ t.ph = .rxDrain ∧
      t.rxf = [0x62] ∧ t.rx.wc = 1 ∧ t.slot .rx 0 = 0x61) ∧
    ∃ t, isrStep { s4 with ph := .rxDrain } = .next t ∧ t.ph = .rxDelim :=
  ⟨⟨_, rfl, rfl, rfl, rfl, State.slot_writeSlot_self _ .rx 0 0x61⟩, _, rfl, rfl⟩

/-- L2.12: the delimiter is 0x09, and the invocation ends when the TX latch is 0. -/
theorem test_rx_delim :
    ∃ t, isrStep { withRings (at' 2 2) (at' 0 0) s4 with ph := .rxDelim } = .next t ∧ t.ph = .idle ∧
      t.rx.wc = 3 ∧ t.slot .rx 2 = 0x09 :=
  ⟨_, rfl, rfl, rfl, State.slot_writeSlot_self _ .rx 2 0x09⟩

/-- L2.9: TX_FILL moves one byte. -/
theorem test_tx_fill :
    ∃ t, isrStep { withRings (at' 0 0) ⟨[(0, 0x68), (1, 0x69)], 0, 2⟩ s4 with ph := .txFill } = .next t ∧
      t.ph = .txFill ∧ t.txf = [0x68] ∧ t.itmp = 0x68 ∧ t.tx.rc = 1 :=
  ⟨_, rfl, rfl, rfl, rfl, rfl⟩

/-- L2.9 and L2.10: no data leads to TX_MASK; a full TXF is tested first and returns. -/
theorem test_tx_fill_ends :
    (∃ t, isrStep { withRings (at' 0 0) (at' 2 2) s4 with ph := .txFill } = .next t ∧ t.ph = .txMask) ∧
    ∃ t, isrStep { State.launch ⟨4, 16, 2, 0⟩ [] [] with
        ph := .txFill, txf := [0x68, 0x69], txie := true } = .next t ∧
      t.ph = .idle ∧ t.txie = true :=
  ⟨⟨_, rfl, rfl⟩, _, rfl, rfl, rfl⟩

/-- L2.13: the gate is closed while TXF holds a byte. -/
theorem test_tx_empty :
    ∃ t, isrStep { s4 with ph := .txEmpty, txf := [0x41], txie := true } = .next t ∧ t.ph = .idle ∧
      t.txie = true :=
  ⟨_, rfl, rfl, rfl⟩

/-! ## Programs and placing a command -/

/-- 95 P2: a poll that finds no data is made again; one that finds the last byte it waits for is over. -/
theorem test_poll :
    (∃ t, taskStep { withRings ⟨[(2, 0x6D)], 2, 2⟩ (at' 0 0) s4 with prog := [.pollRead 3] } = .next t ∧
      t.prog = [.pollRead 3]) ∧
    ∃ t, taskStep { withRings ⟨[(0, 0x61)], 0, 1⟩ (at' 0 0) s4 with prog := [.pollRead 1] } = .next t ∧
      t.prog = [] :=
  ⟨⟨_, rfl, by decide⟩, _, rfl, by decide⟩

/-- 30_encoding R79: the second step of `rb.send` takes its slot from RESP. -/
theorem test_stor_at_resp :
    ∃ t, taskStep { s4 with prog := [.storAtResp 0x69], resp := 2#32 } = .next t ∧ t.slot .tx 2 = 0x69 ∧
      t.prog = [] :=
  ⟨_, rfl, State.slot_writeSlot_self _ .tx 2 0x69, rfl⟩

/-- The first step after a command is placed at reset runs it: L2.B8. -/
theorem test_withFetchWord :
    ∃ t, step (State.reset.withFetchWord 32 0x50000000) = .next t ∧ t.rxie = true ∧ t.prog = [] :=
  ⟨_, rfl, rfl, rfl⟩

/-- 20_memory R52, R54: a write of the bytes of 0x2100_0169 at CMD stores the byte; a read of FAULT. -/
theorem test_port :
    (∃ t, busWrite 0x1000 [0x69, 0x01, 0x00, 0x21] s4 = .next t ∧ t.slot .tx 1 = 0x69) ∧
    ∃ t, busRead 0x1008 4 { s4 with faultReg := 0x80000002#32 } = .next t ∧ t.rdata = 0x80000002#32 :=
  ⟨⟨_, rfl, State.slot_writeSlot_self _ .tx 1 0x69⟩, _, rfl, rfl⟩

/-! ## States and operands that meet the hypotheses of the statements -/

theorem test_meets_EncodeOfDecodeIsTheWord : ∃ i, decode 0x21000169#32 = .ok i := ⟨_, rfl⟩

theorem test_meets_DecoderFollowsTheOpcodeMap :
    ∃ i r, decode 0x31000041#32 = .ok i ∧ r ∈ opcodeMap ∧ r.selects 0x31000041#32 = true :=
  ⟨.push .tx 0x41, ⟨"RB.PUSH", 0x30000000#32, 0xFEFFFF00#32⟩, by decide⟩

/-- One word for each way a word is illegal. -/
theorem test_meets_IllegalWordsFaultIllegal :
    (∃ e, decode 0x00000000#32 = .error e) ∧ (∃ e, decode 0x60000000#32 = .error e) ∧
      (∃ e, decode 0x1E000000#32 = .error e) ∧ (∃ e, decode 0x41000100#32 = .error e) ∧
      ∃ e, decode 0x51000001#32 = .error e :=
  ⟨⟨_, rfl⟩, ⟨_, rfl⟩, ⟨_, rfl⟩, ⟨_, rfl⟩, _, rfl⟩

/-- One word for each fault, and SLOT at both sides of END. -/
theorem test_meets_FaultingCommandRecordsFirstFaultOnly :
    commandFault p1024 0x00000000 = some .eIllegal ∧ commandFault p1024 0x41000000 = some .eOwner ∧
      commandFault p1024 0x21040000 = some .eSlot ∧ commandFault p1024 0x2103FF00 = none ∧
      commandFault p1024 0x20040000 = some .eOwner ∧ commandFault p1024 0x22040000 = some .eIllegal := by
  decide

theorem test_meets_EveryCommandWordCompletes :
    (∀ b, ringWf s4 b) ∧ commandFault s4.params 0x11000000 = none :=
  ⟨(s4_inv .idle 0 0 0 0 (by decide)).rings, by decide⟩

theorem test_meets_OwnershipAndSlotChecks : s4.params.last < (4 : BitVec 16).toNat := by decide

theorem test_meets_RecordedFaultStaysUntilReset :
    ∃ t, faulted { s4 with faultReg := 0x80000002#32, sched := [.isr] } ∧
      step { s4 with faultReg := 0x80000002#32, sched := [.isr] } = .next t :=
  ⟨_, rfl, rfl⟩

/-- WC at END, held by RC, and free to move. -/
theorem test_meets_ResvReturnsSlotAndAdvances :
    p4.wf ∧ (withRings (at' 0 0) (at' 0 3) s4).tx.wc ≤ p4.cap - 1 ∧
      (withRings (at' 0 0) (at' 2 1) s4).tx.wc ≤ p4.cap - 1 ∧ s4.tx.wc ≤ p4.cap - 1 := by decide

/-- SLOT = END. -/
theorem test_meets_StorWritesTheSlot : (3 : BitVec 16).toNat ≤ s4.params.cap - 1 := by decide

theorem test_meets_PushStoresAndAdvances :
    (withRings (at' 0 0) (at' 0 3) s4).tx.wc ≤ p4.cap - 1 := by decide

/-- RC at END with data, and empty at END. -/
theorem test_meets_ReadTakesTheOldestByte :
    (at' 3 0).rc ≤ p4.cap - 1 ∧ (at' 3 0).rc ≠ (at' 3 0).wc ∧ (at' 3 3).rc = (at' 3 3).wc := by decide

theorem test_meets_RegisterCommandsFrame :
    ∀ b, (∃ t, exec (.resv b) s4 = .next t) ∧ ∃ t, exec (.arm b) s4 = .next t := by
  intro b
  cases b <;> exact ⟨⟨_, rfl⟩, _, rfl⟩

/-- Both buffers, and SLOT at END and above it. -/
theorem test_meets_StoringCommandsFrame :
    ∀ b, (∃ t, exec (.stor b 3 0x41) s4 = .next t) ∧ (∃ t, exec (.stor b 4 0x41) s4 = .next t) ∧
      (∃ t, exec (.push b 0x41) s4 = .next t) ∧ (∃ t, exec (.read b) s4 = .next t) ∧
      ∃ t, exec (.read b) (withRings (at' 3 0) (at' 0 0) s4) = .next t := by
  intro b
  cases b <;> exact ⟨⟨_, rfl⟩, ⟨_, rfl⟩, ⟨_, rfl⟩, ⟨_, rfl⟩, _, rfl⟩

/-- An empty ring, and one that holds C − 1 bytes. -/
theorem test_meets_VisibleIsAtMostCapacityLessOne :
    p4.wf ∧ ringWf (withRings (at' 2 2) (at' 0 3) s4) .rx ∧ ringWf (withRings (at' 2 2) (at' 0 3) s4) .tx :=
  ⟨p4_wf, (s4_inv .idle 2 2 0 3 (by decide)).rings .rx, (s4_inv .idle 2 2 0 3 (by decide)).rings .tx⟩

/-- Full; not full; at the END wrap; a Read with data and one without. -/
theorem test_meets_ReserveAndReadChangeVisible :
    p4.wf ∧ (∀ b, ringWf (withRings (at' 1 0) (at' 2 3) s4) b) ∧
      (at' 1 0).isFull p4 = true ∧ (at' 2 3).isFull p4 = false ∧
      (∀ b, ringWf (withRings (at' 0 3) (at' 0 0) s4) b) ∧ (at' 0 3).wc = p4.last ∧
      (at' 0 3).rc = p4.first ∧
      (∃ x t, readByte .rx (withRings (at' 0 3) (at' 0 0) s4) = .ok (true, x, t)) ∧
      ∃ x t, readByte .tx (withRings (at' 0 3) (at' 0 0) s4) = .ok (false, x, t) :=
  ⟨p4_wf, (s4_inv .idle 1 0 2 3 (by decide)).rings, rfl, rfl, (s4_inv .idle 0 3 0 0 (by decide)).rings, rfl,
    rfl, ⟨_, _, rfl⟩, _, _, rfl⟩

theorem test_meets_CursorsFitTheirWidth : p4.wf ∧ ringWf (withRings (at' 3 3) (at' 0 0) s4) .rx :=
  ⟨p4_wf, (s4_inv .idle 3 3 0 0 (by decide)).rings .rx⟩

theorem test_meets_EmptyReadsChangeNothing :
    ringWf (withRings (at' 3 3) (at' 0 0) s4) .rx ∧ (at' 3 3).isEmpty = true :=
  ⟨(s4_inv .idle 3 3 0 0 (by decide)).rings .rx, rfl⟩

theorem test_meets_ReadsReturnTheVisibleSlots :
    p4.wf ∧ ringWf (withRings (at' 3 2) (at' 0 0) s4) .rx :=
  ⟨p4_wf, (s4_inv .idle 3 2 0 0 (by decide)).rings .rx⟩

/-- C − 1 bytes from an empty ring at END. -/
theorem test_meets_FifoOrderAcrossTheWrap :
    p4.wf ∧ ringWf (withRings (at' 3 3) (at' 0 0) s4) .rx ∧ (at' 3 3).isEmpty = true ∧
      [0x61#8, 0x62#8, 0x63#8].length ≤ p4.cap - 1 :=
  ⟨p4_wf, (s4_inv .idle 3 3 0 0 (by decide)).rings .rx, rfl, by decide⟩

theorem test_meets_PushesWhileFullAreLost :
    p4.wf ∧ ringWf (withRings (at' 1 0) (at' 0 0) s4) .rx ∧ (at' 1 0).isFull p4 = true :=
  ⟨p4_wf, (s4_inv .idle 1 0 0 0 (by decide)).rings .rx, rfl⟩

theorem test_meets_EndWrapEmptiesAFullRing :
    p4.wf ∧ ringWf (withRings (at' 0 3) (at' 0 0) s4) .rx ∧ (at' 0 3).wc = p4.last ∧
      (at' 0 3).rc = p4.first :=
  ⟨p4_wf, (s4_inv .idle 0 3 0 0 (by decide)).rings .rx, rfl, rfl⟩

/-- Every phase has a step, with its own half's data present and absent. -/
theorem test_meets_PhaseGraph :
    ∀ ph, (∃ t, isrStep { s4 with ph := ph, rxie := true, pRx := true } = .next t) ∧
      ∃ t, isrStep { withRings (at' 0 0) (at' 0 2) s4 with ph := ph, rxf := [0x61], txf := [0x68] } =
        .next t := by
  intro ph
  cases ph <;> exact ⟨⟨_, rfl⟩, _, rfl⟩

theorem test_meets_EntryLatchesTheStatus :
    let s : State := { s4 with rxie := true, pRx := true }
    s.ph = .idle ∧ (s.pRx && s.rxie || s.pTx && s.txie) = true := by decide

theorem test_meets_RxPhases :
    ringWf s4 .rx ∧ ∀ ph ∈ [Phase.rxAck, .rxDrain, .rxDelim],
      ({ s4 with ph := ph, rxf := [0x61] } : State).ph = ph :=
  ⟨(s4_inv .idle 0 0 0 0 (by decide)).rings .rx, by decide⟩

/-- TXF full, TXF with room and the ring empty, TXF with room and the ring with data. -/
theorem test_meets_TxPhases :
    ringWf (withRings (at' 0 0) (at' 0 2) s4) .tx ∧
      (withRings (at' 0 0) (at' 0 2) s4).tx.rc ≠ (withRings (at' 0 0) (at' 0 2) s4).tx.wc ∧
      s4.tx.rc = s4.tx.wc ∧ s4.txf.length ≠ s4.params.txDepth ∧
      ({ s4 with txf := List.replicate 16 0x68 } : State).txf.length = s4.params.txDepth :=
  ⟨(s4_inv .idle 0 0 0 2 (by decide)).rings .tx, by decide⟩

theorem test_meets_IsrLeavesThePortAndTheTask :
    ∃ t, agentStep .isr { s4 with ph := .txMask } = .next t := ⟨_, rfl⟩

theorem test_meets_IsrWritesExactlyTheseDeviceBits :
    ∃ t, isrStep { s4 with ph := .rxDrain, rxf := [0x61] } = .next t := ⟨_, rfl⟩

/-- An RX phase with two different TX halves, and a TX phase with two different RX halves. -/
theorem test_meets_HalvesAreIndependent :
    (let s : State := { s4 with ph := .rxDrain, rxf := [0x61] }
     let u : State := { withRings (at' 0 0) (at' 1 2) s with txf := [0x41], pTx := true }
     (∃ t, isrStep s = .next t) ∧ u.params = s.params ∧ u.resetNo = s.resetNo ∧ u.ph = s.ph ∧
       u.latRx = s.latRx ∧ u.latTx = s.latTx ∧ u.pRx = s.pRx ∧ u.rxf = s.rxf ∧ u.rx = s.rx) ∧
    (let s : State := { s4 with ph := .txFill }
     let u : State := { withRings (at' 1 2) (at' 0 0) s with rxf := [0x41], pRx := true }
     (∃ t, isrStep s = .next t) ∧ u.params = s.params ∧ u.resetNo = s.resetNo ∧ u.ph = s.ph ∧
       u.latRx = s.latRx ∧ u.latTx = s.latTx ∧ u.pTx = s.pTx ∧ u.txf = s.txf ∧ u.txie = s.txie ∧
       u.tx = s.tx ∧ u.itmp = s.itmp) :=
  ⟨⟨⟨_, rfl⟩, rfl, rfl, rfl, rfl, rfl, rfl, rfl, rfl⟩,
    ⟨_, rfl⟩, rfl, rfl, rfl, rfl, rfl, rfl, rfl, rfl, rfl, rfl⟩

/-- TX_MASK with TXIE set, and the TX_FILL step that finds no data. -/
theorem test_meets_TxieClearedOnlyAfterAnEmptyRead :
    (∃ t, isrStep { s4 with ph := .txMask, txie := true } = .next t) ∧
      ∃ t, isrStep { s4 with ph := .txFill, txie := true } = .next t :=
  ⟨⟨_, rfl⟩, _, rfl⟩

/-- Two visible bytes, three moves of the sequencer, one of the device between them. -/
theorem test_meets_TxFillEndsWithinVisiblePlusOne :
    let s : State := { withRings (at' 0 0) (at' 0 2) s4 with ph := .txFill, latRx := true, latTx := true }
    let moves := [Agent.isr, .device .raiseRx, .isr, .isr]
    s.Inv ∧ s.ph = .txFill ∧ Agent.platformReset ∉ moves ∧
      (s.ring .tx).visible s.params + 1 ≤ moves.count .isr ∧ ∃ t, runMoves moves s = .next t :=
  ⟨s4_inv .txFill 0 0 0 2 (by decide), rfl, by decide, by decide, _, rfl⟩

/-- At Entry with both sources pending, and in RX_DRAIN. -/
theorem test_meets_RxInvocationAppendsOneDelimiter :
    (let s : State :=
      { s4 with pRx := true, rxie := true, pTx := true, txie := true, rxf := [0x61, 0x62] }
     s.Inv ∧ s.ph = .idle ∧ s.pRx = true ∧ s.rxie = true) ∧
    (let s : State := { s4 with ph := .rxDrain, latRx := true, rxf := [0x61, 0x62] }
     s.Inv ∧ s.ph = .rxDrain) :=
  ⟨⟨inv_of_bare _ p4_wf (by decide) (by decide) resp_zero ⟨rfl, rfl⟩ trivial (by decide) (by decide),
      rfl, rfl, rfl⟩,
    inv_of_bare _ p4_wf (by decide) (by decide) resp_zero ⟨rfl, rfl⟩ rfl (by decide) (by decide), rfl⟩

/-- Two visible bytes and room for exactly three (90_conflicts C6). -/
theorem test_meets_TxFillDrainsTheRing :
    let s : State := { State.launch ⟨4, 16, 3, 0⟩ [] [] with ph := .txFill, latTx := true, tx := at' 3 1 }
    s.Inv ∧ s.ph = .txFill ∧ s.txf.length + (s.ring .tx).visible s.params + 1 ≤ s.params.txDepth :=
  ⟨inv_of_bare _ (by decide) (by decide) (by decide) resp_zero ⟨rfl, rfl⟩ rfl (by decide) (by decide),
    rfl, by decide⟩

theorem test_meets_EachCursorHasOneWriter :
    (∃ t, agentStep .task { s4 with prog := [.cmd 0x11000000] } = .next t) ∧
      (∃ t, agentStep .isr { s4 with ph := .rxDelim } = .next t) ∧
      ∃ t, agentStep (.device .depart) { s4 with txf := [0x68] } = .next t :=
  ⟨⟨_, rfl⟩, ⟨_, rfl⟩, _, rfl⟩

/-- IRQ.ARM as a command, for each source; as four bytes written to CMD; and TX_MASK. -/
theorem test_meets_EnableBitsChangeOnlyByArmAndMask :
    (∃ t, agentStep .task { s4 with prog := [.cmd 0x50000000] } = .next t ∧ t.rxie = true) ∧
      (∃ t, agentStep .task { s4 with prog := [.busWrite 0x1000 [0, 0, 0, 0x50]] } = .next t ∧
        t.rxie = true) ∧
      (∃ t, agentStep .task { s4 with prog := [.cmd 0x51000000] } = .next t ∧ t.txie = true) ∧
      ∃ t, agentStep .isr { s4 with ph := .txMask, rxie := true, txie := true } = .next t ∧ t.txie = false :=
  ⟨⟨_, rfl, rfl⟩, ⟨_, rfl, rfl⟩, ⟨_, rfl, rfl⟩, _, rfl, rfl⟩

theorem test_meets_TransmittedBytesKeepTheirOrder :
    (∃ t, agentStep .isr { withRings (at' 0 0) (at' 0 2) s4 with ph := .txFill } = .next t) ∧
      ∃ t, agentStep (.device .depart) { s4 with txf := [0x68], wireOut := [0x67] } = .next t :=
  ⟨⟨_, rfl⟩, _, rfl⟩

theorem test_meets_ReceivedBytesKeepTheirOrder :
    let s : State := { s4 with ph := .rxDrain, rxf := [0x62], wireIn := [0x61, 0x62] }
    s.wireIn = [0x61] ++ s.rxf ∧ (∃ t, agentStep .isr s = .next t) ∧
      ∃ t, agentStep (.device (.arrive 0x63)) s = .next t :=
  ⟨rfl, ⟨_, rfl⟩, _, rfl⟩

/-- Room for one byte more, and one byte to send. -/
theorem test_meets_DeviceSteps :
    ({ s4 with rxf := List.replicate 15 0x61 } : State).rxf.length < s4.params.rxDepth ∧ ({ s4 with txf := [0x68] } : State).txf = [0x68] := by decide

/-- Each of the ways an agent has no step. -/
theorem test_meets_DisabledAgentsDoNotStep :
    let full : State := { s4 with ph := .rxAck, rxf := List.replicate 16 0x61 }
    full.ph ≠ .idle ∧ s4.ph = .idle ∧ enabled .task full = false ∧ enabled .isr s4 = false ∧
      enabled (.device .depart) s4 = false ∧ enabled (.device (.arrive 0x61)) full = false := by
  decide

theorem test_meets_StepRunsTheDecodedCommand :
    (let s : State := { s4 with sched := [.task], prog := [.cmd 0x31000041, .cmd 0] }
     s.sched = .task :: [] ∧ s.ph = .idle ∧ s.prog = .cmd 0x31000041 :: [.cmd 0] ∧
       decode 0x31000041 = .ok (.push .tx 0x41)) ∧
    (let s : State := { s4 with sched := [.task], prog := [.cmd 0] }
     s.sched = .task :: [] ∧ s.ph = .idle ∧ s.prog = .cmd 0 :: [] ∧ decode 0 = .error .reservedOp) ∧
    decodeTableWord 32 0x50000000 = some (.arm .rx) := by
  decide

/-- Just below the window, just above it, in it at a wrong width, and in it at its last byte. -/
theorem test_meets_OtherPortAccessesAreRefused :
    s4.params.wf ∧ 0xFFF < s4.params.blockBase ∧ s4.params.blockBase + 0x10 ≤ 0x1010 ∧
      s4.params.blockBase ≤ 0x1000 ∧ 2 ≠ 4 ∧ 0x100F < s4.params.blockBase + 0x10 ∧ 0x100F % 4 ≠ 0 ∧
      [0x01#8, 0x02#8].length ≠ 4 := by
  decide

theorem test_meets_SendUninterruptedEqualsPush :
    let s : State := withRings (at' 0 0) (at' 1 0) s4
    s.Inv ∧ s.ph = .idle :=
  ⟨inv_of_bare _ p4_wf (by decide) (by decide) resp_zero ⟨rfl, rfl⟩ trivial (by decide) (by decide), rfl⟩

/-- 95 P3. -/
theorem test_meets_ReserveStoreWindow :
    let s : State :=
      { withRings (at' 0 0) (at' 3 3) s4 with prog := rbSend 0x5A ++ [], txie := true, pTx := true }
    s.Inv ∧ s.ph = .idle ∧ s.prog = rbSend 0x5A ++ [] ∧ (s.ring .tx).isEmpty = true ∧ s.txie = true ∧
      s.pTx = true ∧ s.pRx = false ∧ s.txf = [] ∧ 2 ≤ s.params.txDepth :=
  ⟨inv_of_bare _ p4_wf (by decide) (by decide) resp_zero ⟨rfl, rfl⟩ trivial (by decide) (by decide),
    rfl, rfl, rfl, rfl, rfl, rfl, rfl, by decide⟩

theorem test_meets_QuiescentStatesRest :
    let s : State := { s4 with sched := [.task, .isr] }
    quiescent s ∧ s.sched.head? ≠ some .platformReset :=
  ⟨⟨rfl, rfl, rfl, by decide⟩, by decide⟩

theorem test_meets_ResetMeetsTheInvariant : p1024.wf ∧ Params.wf ⟨65536, 1, 1, 0⟩ ∧ Params.wf ⟨2, 1, 1, 0⟩ := by
  decide

/-- A step of each kind of agent from a state that meets the invariant. -/
theorem test_meets_StepKeepsTheInvariant :
    ∀ a ∈ [Agent.task, .isr, .device .raiseRx, .platformReset],
      ({ s4 with sched := [a], prog := [.cmd 0x31000041] } : State).Inv ∧
        ∃ t, step { s4 with sched := [a], prog := [.cmd 0x31000041] } = .next t := by
  intro a ha
  refine ⟨inv_of_bare _ p4_wf ⟨rfl, Nat.zero_le 3, Nat.zero_le 3⟩ ⟨rfl, Nat.zero_le 3, Nat.zero_le 3⟩
    resp_zero ⟨rfl, rfl⟩ trivial (Nat.zero_le 16) (Nat.zero_le 16), ?_⟩
  fin_cases ha <;> exact ⟨_, rfl⟩

theorem test_meets_NoStepLeavesTheStorage : s4.Inv ∧ State.reset.params.cap = 1024 :=
  ⟨inv_of_bare _ p4_wf (by decide) (by decide) resp_zero ⟨rfl, rfl⟩ trivial (by decide) (by decide), rfl⟩

theorem test_meets_ParametersNeverChange :
    ∃ t, step { s4 with sched := [.task], prog := [.cmd 0x31000041] } = .next t := ⟨_, rfl⟩

/-- Each outcome the statement allows does occur: a next state; a bus access just below and just above the
window, one at a wrong address and one of a wrong width in it; an arrival at a full FIFO. -/
theorem test_meets_OnlyOutsideTheModelIsRefused :
    s4.Inv ∧ (∃ t, step s4 = .next t) ∧
      step { s4 with sched := [.task], prog := [.busRead 0xFFF 4] } = .refused (.notThisBlock 0xFFF) ∧
      step { s4 with sched := [.task], prog := [.busRead 0x1010 4] } = .refused (.notThisBlock 0x1010) ∧
      step { s4 with sched := [.task], prog := [.busRead 0x100C 2] } =
        .refused (.portAccessShape 0x100C 2) ∧
      step { s4 with sched := [.task], prog := [.busWrite 0x1002 [1, 2, 3, 4]] } =
        .refused (.portAccessShape 0x1002 4) ∧
      step { s4 with sched := [.device (.arrive 1)], rxf := List.replicate 16 0x61 } =
        .refused .arriveAtFullFifo :=
  ⟨inv_of_bare _ p4_wf (by decide) (by decide) resp_zero ⟨rfl, rfl⟩ trivial (by decide) (by decide),
    ⟨_, rfl⟩, rfl, rfl, rfl, rfl, rfl⟩

/-! ### A fair run in which IRQ stays 1

Entry and RX_ACK, then for ever: the sequencer drains the one byte of RXF, a byte arrives, and the device
raises RX and TX. The TX source keeps IRQ at 1, the RX invocation never ends (70_reset R170). -/

namespace Sys2Proof.Tests

/-- Who moves. -/
def fairMove : Nat → Agent
  | 0 => .isr
  | 1 => .isr
  | n + 2 =>
    if n % 4 = 0 then .isr
    else if n % 4 = 1 then .device (.arrive 0x61)
    else if n % 4 = 2 then .device .raiseRx
    else .device .raiseTx

/-- Where the run starts: both sources enabled and pending, one byte received. -/
def fairStart : State :=
  { s4 with rxie := true, txie := true, pRx := true, pTx := true, rxf := [0x61] }

/-- The run. -/
def fairRun : Nat → State
  | 0 => fairStart
  | n + 1 =>
    match agentStep (fairMove n) (fairRun n) with
    | .next t => t
    | _ => fairRun n

/-- What stays true while the sequencer drains: the TX source asks, TXF is empty, `l` is in RXF. -/
def Draining (l : List Byte) (s : State) : Prop :=
  s.params = p4 ∧ s.ph = .rxDrain ∧ s.pTx = true ∧ s.txie = true ∧ s.txf = [] ∧ s.rxf = l ∧ s.rx.wc ≤ 3

theorem draining_isr {s : State} (h : Draining [0x61] s) :
    ∃ t, agentStep .isr s = .next t ∧ Draining [] t := by
  obtain ⟨hp, hph, h1, h2, h3, h4, h5⟩ := h
  obtain ⟨t, ht⟩ : ∃ t, push .rx 0x61 { s with rxf := [] } = .ok t :=
    ⟨_, push_ok (by rw [show ({ s with rxf := [] } : State).params = p4 from hp]; exact h5)⟩
  have hr := push_ringsOnly ht
  have hw : (t.ring .rx).wc ≤ p4.last := by
    rw [push_wc ht, show ({ s with rxf := [] } : State).params = p4 from hp]
    exact Ring.wcAfterReserve_le_last h5
  refine ⟨t.setPh .rxDrain, ?_, hr.model.1.trans hp, rfl, hr.env.2.2.2.1.trans h1, hr.env.2.1.trans h2,
    hr.env.2.2.2.2.2.1.trans h3, hr.env.2.2.2.2.1, hw⟩
  have hs : agentStep .isr s = isrRxDrain s := by simp [agentStep, isrStep, hph]
  rw [hs, isrRxDrain, devPopRx_eq_some.mpr ⟨[], h4, rfl⟩]
  show finish _ (push .rx 0x61 { s with rxf := [] }) = _
  rw [ht]
  rfl

theorem draining_arrive {s : State} (h : Draining [] s) :
    ∃ t, agentStep (.device (.arrive 0x61)) s = .next t ∧ Draining [0x61] t := by
  obtain ⟨hp, hph, h1, h2, h3, h4, h5⟩ := h
  refine ⟨{ s with rxf := s.rxf ++ [0x61], wireIn := s.wireIn ++ [0x61] }, ?_, hp, hph, h1, h2, h3, ?_, h5⟩
  · simp [agentStep, deviceStep, deviceArrive, h4, hp, p4]
  · simp [h4]

/-- What RXF holds `n` moves after RX_ACK. -/
def fairRxf (n : Nat) : List Byte := if n % 4 = 1 then [] else [0x61]

/-- Every move after RX_ACK answers, and draining goes on. -/
theorem draining_step {s : State} {n : Nat} (h : Draining (fairRxf n) s) :
    ∃ t, agentStep (fairMove (n + 2)) s = .next t ∧ Draining (fairRxf (n + 1)) t := by
  obtain h0 | h0 | h0 | h0 : n % 4 = 0 ∨ n % 4 = 1 ∨ n % 4 = 2 ∨ n % 4 = 3 := by omega
  · rw [show fairRxf n = [0x61] by simp [fairRxf, h0]] at h
    rw [show fairRxf (n + 1) = [] by simp [fairRxf, Nat.add_mod, h0],
      show fairMove (n + 2) = .isr by simp [fairMove, h0]]
    exact draining_isr h
  · rw [show fairRxf n = [] by simp [fairRxf, h0]] at h
    rw [show fairRxf (n + 1) = [0x61] by simp [fairRxf, Nat.add_mod, h0],
      show fairMove (n + 2) = .device (.arrive 0x61) by simp [fairMove, h0]]
    exact draining_arrive h
  · rw [show fairRxf n = [0x61] by simp [fairRxf, h0]] at h
    rw [show fairRxf (n + 1) = [0x61] by simp [fairRxf, Nat.add_mod, h0],
      show fairMove (n + 2) = .device .raiseRx by simp [fairMove, h0]]
    exact ⟨{ s with pRx := true }, rfl, h⟩
  · rw [show fairRxf n = [0x61] by simp [fairRxf, h0]] at h
    rw [show fairRxf (n + 1) = [0x61] by simp [fairRxf, Nat.add_mod, h0],
      show fairMove (n + 2) = .device .raiseTx by simp [fairMove, h0]]
    exact ⟨{ s with pTx := true }, rfl, h.1, h.2.1, rfl, h.2.2.2⟩

theorem fairRun_draining (n : Nat) : Draining (fairRxf n) (fairRun (n + 2)) := by
  induction n with
  | zero => exact ⟨rfl, rfl, rfl, rfl, rfl, rfl, by decide⟩
  | succ n ih =>
    obtain ⟨t, ht, hd⟩ := draining_step ih
    rw [show fairRun (n + 1 + 2) = t by rw [fairRun, ht]]
    exact hd

theorem fairRun_isRun : IsRun fairMove fairRun := by
  intro n
  match n with
  | 0 => rfl
  | 1 => rfl
  | n + 2 =>
    obtain ⟨t, ht, _⟩ := draining_step (fairRun_draining n)
    rw [show fairRun (n + 2 + 1) = t by rw [fairRun, ht]]
    exact ht

theorem fairRun_irq (n : Nat) : irq (fairRun n) = true := by
  match n with
  | 0 => rfl
  | 1 => rfl
  | n + 2 =>
    obtain ⟨_, _, h1, h2, _⟩ := fairRun_draining n
    simp [irq, statusTx, h1, h2]

theorem fairRun_txf (n : Nat) : (fairRun n).txf = [] := by
  match n with
  | 0 => rfl
  | 1 => rfl
  | n + 2 => exact (fairRun_draining n).2.2.2.2.1

theorem fairRun_fair : Fair fairMove fairRun where
  raiseRx := fun n _ => ⟨4 * n + 4, by omega, by simp [fairMove]⟩
  raiseTx := fun n _ => ⟨4 * n + 5, by omega, by simp [fairMove]⟩
  depart := fun n h => absurd (fairRun_txf n) (h n (Nat.le_refl n))
  isr := fun n _ => ⟨4 * n + 2, by omega, by simp [fairMove]⟩

end Sys2Proof.Tests

theorem test_meets_EntryIsEventuallyTaken :
    IsRun fairMove fairRun ∧ Fair fairMove fairRun ∧ (fairRun 0).ph = .idle ∧
      ∀ m, 0 ≤ m → irq (fairRun m) = true :=
  ⟨fairRun_isRun, fairRun_fair, rfl, fun m _ => fairRun_irq m⟩
end

/-! ## Proofs of the scope statements (00_scope R8)

The width of a cursor against C, and what each agent's step leaves of the parameters, the reset's number
and the schedule. -/

namespace Sys2Proof.Machine

/-! ### The width of a cursor -/

/-- R8: W is the ceiling of log2 C. -/
theorem cursorBits_bounds {p : Params} (hp : 2 ≤ p.cap) :
    2 ^ (p.cursorBits - 1) < p.cap ∧ p.cap ≤ 2 ^ p.cursorBits := by
  have hlow : 2 ^ Nat.log2 (p.cap - 1) ≤ p.cap - 1 := Nat.log2_self_le (by omega)
  have hhigh : p.cap - 1 < 2 ^ (Nat.log2 (p.cap - 1) + 1) := Nat.lt_log2_self
  rw [Params.cursorBits, Nat.add_sub_cancel]
  omega

/-- A slot index in [BEGIN, END] fits the width of a cursor. -/
theorem lt_two_pow_cursorBits {p : Params} {i : Nat} (hp : 2 ≤ p.cap) (hi : i ≤ p.last) :
    i < 2 ^ p.cursorBits := by
  have hcap := (cursorBits_bounds hp).2
  rw [Params.last_eq] at hi
  omega

/-- Settles O21: W is the ceiling of log2 C, and Succ keeps a cursor in [BEGIN, END]. -/
theorem cursorsFitTheirWidth : Obligations.CursorsFitTheirWidth := by
  intro s b ⟨hp, _⟩ ⟨hrc, hwc, _⟩
  obtain ⟨hlow, hhigh⟩ := cursorBits_bounds hp
  exact ⟨hlow, hhigh, lt_two_pow_cursorBits hp hrc, lt_two_pow_cursorBits hp hwc,
    lt_two_pow_cursorBits hp (succ_le_last hrc), lt_two_pow_cursorBits hp (succ_le_last hwc)⟩

/-! ### All that the task's operations can do -/

/-- Writing a word to CMD records E_ILLEGAL or executes the command the word decodes to (R77). -/
theorem execute_cases {w : Word} {s t : State} (h : execute w s = .next t) :
    (∃ e, decode w = .error e ∧ t = raiseFault .eIllegal w s) ∨
      ∃ i, decode w = .ok i ∧ exec i s = .next t := by
  unfold execute at h
  cases hd : decode w with
  | error e =>
    simp only [hd] at h
    cases h
    exact .inl ⟨e, rfl, rfl⟩
  | ok i =>
    simp only [hd] at h
    exact .inr ⟨i, rfl, h⟩

/-- A step of a poll is its read, after which only the program is replaced. -/
theorem pollStep_cases {n : Nat} {ops : List TaskOp} {s t : State} (h : pollStep n ops s = .next t) :
    ∃ u, execute readWord s = .next u ∧ t = { u with prog := pollLeft n u.resp ++ ops } := by
  unfold pollStep at h
  split at h <;> cases h
  exact ⟨_, by assumption, rfl⟩

/-- A bus read that is answered is a 4-byte read of a port register (R52, R55). -/
theorem busRead_cases {addr n : Nat} {s t : State} (h : busRead addr n s = .next t) :
    ∃ reg, n = 4 ∧ portRegAt s.params addr = some reg ∧ t = { s with rdata := portRead reg s } := by
  unfold busRead at h
  split at h
  · cases h
  split at h
  · cases h
  next _ hn =>
  split at h <;> cases h
  exact ⟨_, not_not.mp hn, by assumption, rfl⟩

/-- A bus write that is answered is a 4-byte write of a port register (R52, R55). -/
theorem busWrite_cases {addr : Nat} {bytes : List Byte} {s t : State}
    (h : busWrite addr bytes s = .next t) :
    ∃ reg b0 b1 b2 b3, bytes = [b0, b1, b2, b3] ∧ portRegAt s.params addr = some reg ∧
      portWrite reg (wordOfBytes b0 b1 b2 b3) s = .next t := by
  unfold busWrite at h
  split at h
  · cases h
  split at h
  · split at h
    · cases h
    · exact ⟨_, _, _, _, _, rfl, by assumption, h⟩
  · cases h

/-- The task waits, or its phase is IDLE and it executes the first item of its program (R59). -/
theorem taskStep_cases {s t : State} (h : taskStep s = .next t) :
    t = s ∨ ∃ op ops, s.ph = .idle ∧ s.prog = op :: ops ∧ taskOp op ops s = .next t := by
  unfold taskStep at h
  split at h
  next hph =>
    split at h
    next => cases h; exact .inl rfl
    next op ops hprog => exact .inr ⟨op, ops, hph, hprog, h⟩
  next => cases h; exact .inl rfl

/-! ### What the agents leave of the parameters, the reset's number and the schedule -/

/-- What no command changes: the model's own fields, the sequencer's and the task's. -/
structure CommandFrame (s t : State) : Prop where
  model : modelSame s t
  seq : seqSame s t
  task : taskSame s t

theorem CommandFrame.raiseFault (c : FaultCode) (w : Word) (s : State) :
    CommandFrame s (raiseFault c w s) := by
  obtain ⟨hmodel, hseq, _, htask, _⟩ := raiseFault_frame c w s
  exact ⟨hmodel, hseq, htask⟩

/-- A ring command that is not turned away changes rings, and then answers in RESP. -/
theorem RingsOnly.commandFrame_setResp {s u : State} (hu : RingsOnly s u) (w : Word) :
    CommandFrame s (u.setResp w) :=
  ⟨hu.model, hu.seq, hu.task⟩

theorem execResv_frame {b : Buf} {s t : State} (h : execResv b s = .next t) : CommandFrame s t := by
  unfold execResv at h
  split at h <;> cases h
  · exact .raiseFault _ _ s
  · exact (RingsOnly.setRing s .tx _).commandFrame_setResp _

theorem execStor_frame {b : Buf} {slot : BitVec 16} {data : Byte} {s t : State}
    (h : execStor b slot data s = .next t) : CommandFrame s t := by
  unfold execStor at h
  split at h
  · cases h
    exact .raiseFault _ _ s
  · split at h
    · cases h
      exact .raiseFault _ _ s
    · obtain ⟨u, hu, rfl⟩ := finish_eq_next.mp h
      exact (store_ringsOnly hu).commandFrame_setResp _

theorem execPush_frame {b : Buf} {data : Byte} {s t : State} (h : execPush b data s = .next t) :
    CommandFrame s t := by
  unfold execPush at h
  split at h
  · cases h
    exact .raiseFault _ _ s
  · obtain ⟨u, hu, rfl⟩ := finish_eq_next.mp h
    exact (push_ringsOnly hu).commandFrame_setResp _

theorem execRead_frame {b : Buf} {s t : State} (h : execRead b s = .next t) : CommandFrame s t := by
  unfold execRead at h
  split at h
  · cases h
    exact .raiseFault _ _ s
  · split at h <;> cases h
    next hu => exact (readByte_ringsOnly hu).commandFrame_setResp _

theorem execArm_frame {src : Buf} {s t : State} (h : execArm src s = .next t) : CommandFrame s t := by
  cases h
  cases src <;> exact ⟨⟨rfl, rfl, rfl⟩, ⟨rfl, rfl, rfl, rfl⟩, rfl, rfl⟩

theorem exec_frame {i : Instr} {s t : State} (h : exec i s = .next t) : CommandFrame s t := by
  cases i with
  | resv b => exact execResv_frame h
  | stor b slot data => exact execStor_frame h
  | push b data => exact execPush_frame h
  | read b => exact execRead_frame h
  | arm src => exact execArm_frame h

theorem execute_frame {w : Word} {s t : State} (h : execute w s = .next t) : CommandFrame s t := by
  obtain ⟨_, _, rfl⟩ | ⟨i, _, hi⟩ := execute_cases h
  · exact .raiseFault .eIllegal w s
  · exact exec_frame hi

theorem portWrite_modelSame {reg : PortReg} {w : Word} {s t : State} (h : portWrite reg w s = .next t) :
    modelSame s t := by
  cases reg with
  | cmd => exact (execute_frame h).model
  | resp | fault | fcmd =>
    cases h
    exact ⟨rfl, rfl, rfl⟩

theorem taskOp_modelSame {op : TaskOp} {ops : List TaskOp} {s t : State}
    (h : taskOp op ops s = .next t) : modelSame s t := by
  cases op with
  | cmd w => exact (execute_frame h).model
  | storAtResp data => exact (execute_frame h).model
  | pollRead n =>
    obtain ⟨u, hu, rfl⟩ := pollStep_cases h
    exact (execute_frame hu).model
  | busRead addr n =>
    obtain ⟨reg, _, _, rfl⟩ := busRead_cases h
    exact ⟨rfl, rfl, rfl⟩
  | busWrite addr bytes =>
    obtain ⟨reg, b0, b1, b2, b3, _, _, hw⟩ := busWrite_cases h
    exact (portWrite_modelSame hw :)

theorem taskStep_modelSame {s t : State} (h : taskStep s = .next t) : modelSame s t := by
  obtain rfl | ⟨op, ops, _, _, hop⟩ := taskStep_cases h
  · exact ⟨rfl, rfl, rfl⟩
  · exact taskOp_modelSame hop

theorem isrStep_modelSame {s t : State} (h : isrStep s = .next t) : modelSame s t := by
  cases isrStep_cases h with
  | rxByte v rest u _ _ hu ht =>
    subst ht
    exact (push_ringsOnly hu).model
  | rxDelim u _ hu ht =>
    subst ht
    exact (push_ringsOnly hu).model
  | txByte x u _ _ hu ht | txNone x u _ _ hu ht =>
    subst ht
    exact (readByte_ringsOnly hu).model
  | entry _ _ ht | wait _ _ ht | rxAck _ ht | rxDone _ _ ht | txAck _ ht | txEmpty _ ht | txFull _ _ ht
  | txMask _ ht =>
    subst ht
    exact ⟨rfl, rfl, rfl⟩

/-- No move, the block's reset included, changes a parameter. -/
theorem agentStep_params {a : Agent} {s t : State} (h : agentStep a s = .next t) :
    t.params = s.params := by
  cases a with
  | task => exact (taskStep_modelSame h).1
  | isr => exact (isrStep_modelSame h).1
  | device d => exact (deviceStep_frame h).1.1
  | platformReset =>
    cases h
    rfl

/-- All that a step of the machine can do: nothing when nobody is named, else the move of the agent named
next, which leaves the schedule (R57). -/
theorem step_cases {s t : State} (h : step s = .next t) :
    (s.sched = [] ∧ t = s) ∨
      ∃ a rest, s.sched = a :: rest ∧ agentStep a { s with sched := rest } = .next t := by
  unfold step scheduledStep at h
  split at h
  next hs => cases h; exact .inl ⟨hs, rfl⟩
  next a rest hs => exact .inr ⟨a, rest, hs, h⟩

/-- Settles O56: no agent's move changes a parameter, and taking the move off the schedule does not. -/
theorem parametersNeverChange : Obligations.ParametersNeverChange := by
  intro s t h
  obtain ⟨_, rfl⟩ | ⟨a, rest, _, ha⟩ := step_cases h
  · rfl
  · exact (agentStep_params ha).trans rfl

end Sys2Proof.Machine

/-! ## Proofs of the state statements (10_state)

What a command word can do to the state, what a step of each agent can do, and from these the invariant,
the frames of the commands, the ownership of the cursors and the order of the bytes through the FIFOs. -/

namespace Sys2Proof

/-! ### Illegal words -/

/-- A word selects no row of the opcode map exactly when its fields are not legal (30_encoding R73, R74). -/
theorem all_not_selects_eq_not_wellFormed (w : Word) :
    opcodeMap.all (fun r => !r.selects w) = !(fieldsOf w).wellFormed := by
  rw [← wordOfFields_fieldsOf w, fieldsOf_wordOfFields]
  generalize fieldsOf w = f
  have hresv : 0x10000000#32 = wordOfFields ⟨1#4, 0#3, 0#1, 0#16, 0#8⟩ := by decide
  have hstor : 0x20000000#32 = wordOfFields ⟨2#4, 0#3, 0#1, 0#16, 0#8⟩ := by decide
  have hpush : 0x30000000#32 = wordOfFields ⟨3#4, 0#3, 0#1, 0#16, 0#8⟩ := by decide
  have hread : 0x40000000#32 = wordOfFields ⟨4#4, 0#3, 0#1, 0#16, 0#8⟩ := by decide
  have harm : 0x50000000#32 = wordOfFields ⟨5#4, 0#3, 0#1, 0#16, 0#8⟩ := by decide
  obtain ⟨op, rsv, b, slot, data⟩ := f
  simp only [opcodeMap, List.all_cons, List.all_nil, Row.selects, and_maskAllButB, and_maskOpRsv,
    and_maskAllButBData, hresv, hstor, hpush, hread, harm, Fields.wellFormed, Fields.opKnown,
    Fields.rsvZero, Fields.slotZero, Fields.dataZero, Bool.beq_eq_decide_eq, wordOfFields_inj,
    Fields.mk.injEq, true_and, Bool.decide_and, Bool.and_true]
  generalize decide (rsv = 0#3) = r, decide (slot = 0#16) = i, decide (data = 0#8) = d
  revert op r i d
  decide

/-- Legal fields are those of the command they stand for. -/
theorem fields_of_instrOf {f : Fields} {i : Instr} (h : instrOf f = some i) (hr : f.rsvZero = true)
    (hs : f.slotZero = true) (hd : f.dataZero = true) : i.fields = f := by
  obtain ⟨op, rsv, b, slot, data⟩ := f
  unfold instrOf at h
  split at h <;> cases h
  all_goals simp_all [Instr.fields, Fields.rsvZero, Fields.slotZero, Fields.dataZero, ← BitVec.toNat_inj]

theorem opKnown_of_instrOf_eq_none {f : Fields} (h : instrOf f = none) : f.opKnown = false := by
  unfold instrOf at h
  split at h <;> cases h
  simp only [Fields.opKnown, decide_eq_false_iff_not]
  grind

/-- The fields a command is decoded from are its own. -/
theorem fields_of_decodeFields {f : Fields} {i : Instr} (h : decodeFields f = .ok i) : i.fields = f := by
  unfold decodeFields at h
  split at h
  · cases h
  split at h
  · cases h
  next hr _ j hj =>
  split at h
  · cases h
  split at h <;> cases h
  next hs hd => exact fields_of_instrOf hj (by simpa using hr) (by simpa using hs) (by simpa using hd)

/-- Fields that decode to nothing are not legal. -/
theorem wellFormed_of_decodeFields_error {f : Fields} {e : DecodeError} (h : decodeFields f = .error e) :
    f.wellFormed = false := by
  unfold decodeFields at h
  split at h
  next hr => simp_all [Fields.wellFormed]
  split at h
  next hn => simp [Fields.wellFormed, opKnown_of_instrOf_eq_none hn]
  split at h
  next hs => simp_all [Fields.wellFormed]
  split at h <;> cases h
  next hd => simp_all [Fields.wellFormed]

/-- A legal word is the word of the command it decodes to (30_encoding R76). -/
theorem encode_of_decode {w : Word} {i : Instr} (h : decode w = .ok i) : encode i = w := by
  rw [encode, fields_of_decodeFields h, wordOfFields_fieldsOf]

end Sys2Proof

namespace Sys2Proof.Machine

/-! ### The fault a command word raises -/

/-- The fault the port raises for a command it turns away (60_exceptions R130). -/
def portFault (p : Params) : Instr → Option FaultCode
  | .resv .rx | .stor .rx _ _ | .push .rx _ | .read .tx => some .eOwner
  | .stor .tx slot _ => if p.last < slotIndex slot then some .eSlot else none
  | .resv .tx | .push .tx _ | .read .rx | .arm _ => none

theorem commandFault_encode (p : Params) (i : Instr) : commandFault p (encode i) = portFault p i := by
  have hlegal : (fieldsOf (encode i)).wellFormed = true := by
    rw [encode, fieldsOf_wordOfFields]
    exact i.wellFormed_eq_true
  rw [commandFault, all_not_selects_eq_not_wellFormed, hlegal, encode, fieldsOf_wordOfFields]
  cases i with
  | resv b | push b _ | read b | arm b => cases b <;> rfl
  | stor b slot data =>
    cases b with
    | rx => rfl
    | tx => by_cases h : p.last < slot.toNat <;> simp [Instr.fields, Buf.bit, portFault, slotIndex, h]

theorem commandFault_of_decode_error {p : Params} {w : Word} {e : DecodeError} (h : decode w = .error e) :
    commandFault p w = some .eIllegal := by
  rw [commandFault, all_not_selects_eq_not_wellFormed, wellFormed_of_decodeFields_error h]
  rfl

/-! ### What the ring primitives leave unchanged -/

theorem push_rx_tx {s t : State} {v : Byte} (h : push .rx v s = .ok t) : t.tx = s.tx :=
  push_other (c := .tx) h nofun

theorem push_tx_rx {s t : State} {v : Byte} (h : push .tx v s = .ok t) : t.rx = s.rx :=
  push_other (c := .rx) h nofun

theorem readByte_rx_tx {s t : State} {y : Bool} {x : Byte} (h : readByte .rx s = .ok (y, x, t)) :
    t.tx = s.tx :=
  readByte_other (c := .tx) h nofun

theorem readByte_tx_rx {s t : State} {y : Bool} {x : Byte} (h : readByte .tx s = .ok (y, x, t)) :
    t.rx = s.rx :=
  readByte_other (c := .rx) h nofun

theorem readByte_wc {s t : State} {b : Buf} {y : Bool} {x : Byte} (h : readByte b s = .ok (y, x, t)) :
    (t.ring b).wc = (s.ring b).wc := by
  cases y with
  | true =>
    obtain ⟨_, _, _, hwc, _⟩ := readByte_true h
    exact hwc
  | false => rw [(readByte_false h).2.2]

theorem readByte_slot_other {s t : State} {b c : Buf} {y : Bool} {x : Byte} {i : Nat}
    (h : readByte b s = .ok (y, x, t)) (hi : c ≠ b ∨ i ≠ (s.ring b).rc) : t.slot c i = s.slot c i := by
  obtain ⟨_, _, ⟨_, _, rfl⟩ | ⟨_, _, rfl⟩⟩ := readByte_cases h
  · rfl
  · rw [State.slot_setRing_of_store _ (by rfl), State.slot_writeSlot_other _ _ hi]

theorem readByte_eq_of_empty {s t : State} {b : Buf} {y : Bool} {x : Byte}
    (h : readByte b s = .ok (y, x, t)) (he : (s.ring b).rc = (s.ring b).wc) : t = s := by
  cases y with
  | true => exact absurd he (readByte_true h).1
  | false => exact (readByte_false h).2.2

/-- The FIFOs and the logs are the same (10_state R38, R40). -/
def fifosSame (s t : State) : Prop :=
  t.rxf = s.rxf ∧ t.txf = s.txf ∧ t.wireIn = s.wireIn ∧ t.wireOut = s.wireOut

theorem envSame.fifosSame {s t : State} (h : envSame s t) : fifosSame s t :=
  h.2.2.2.2

section
variable {s u : State} (h : RingsOnly s u)
include h

theorem RingsOnly.params : u.params = s.params := h.model.1
theorem RingsOnly.latRx : u.latRx = s.latRx := h.seq.2.1
theorem RingsOnly.latTx : u.latTx = s.latTx := h.seq.2.2.1

theorem RingsOnly.fifosSame : fifosSame s u := h.env.fifosSame

end

/-! ### All that a command can do -/

/-- RB.RESV is turned away, or reserves (40_ring_buffer R96). -/
theorem execResv_cases {b : Buf} {s t : State} (h : execResv b s = .next t) :
    (b = .rx ∧ t = raiseFault .eOwner (encode (.resv .rx)) s) ∨
      (b = .tx ∧ t = (reserve .tx s).2.setResp (respOfSlot s.tx.wc)) := by
  cases b <;> cases h
  · exact .inl ⟨rfl, rfl⟩
  · exact .inr ⟨rfl, rfl⟩

/-- RB.STOR is turned away by its buffer or by its slot, or stores (R97). -/
theorem execStor_cases {b : Buf} {slot : BitVec 16} {v : Byte} {s t : State}
    (h : execStor b slot v s = .next t) :
    (b = .rx ∧ t = raiseFault .eOwner (encode (.stor .rx slot v)) s) ∨
      (b = .tx ∧ s.params.last < slotIndex slot ∧ t = raiseFault .eSlot (encode (.stor .tx slot v)) s) ∨
      (b = .tx ∧ ∃ u, store .tx (slotIndex slot) v s = .ok u ∧ t = u.setResp 0#32) := by
  cases b with
  | rx =>
    cases h
    exact .inl ⟨rfl, rfl⟩
  | tx =>
    simp only [execStor, ne_eq, not_true_eq_false, if_false] at h
    split at h
    next hs =>
      cases h
      exact .inr (.inl ⟨rfl, hs, rfl⟩)
    next => exact .inr (.inr ⟨rfl, finish_eq_next.mp h⟩)

/-- RB.PUSH is turned away, or pushes (R98). -/
theorem execPush_cases {b : Buf} {v : Byte} {s t : State} (h : execPush b v s = .next t) :
    (b = .rx ∧ t = raiseFault .eOwner (encode (.push .rx v)) s) ∨
      (b = .tx ∧ ∃ u, push .tx v s = .ok u ∧ t = u.setResp 0#32) := by
  cases b with
  | rx =>
    cases h
    exact .inl ⟨rfl, rfl⟩
  | tx => exact .inr ⟨rfl, finish_eq_next.mp h⟩

/-- RB.READ is turned away, or reads (R99). -/
theorem execRead_cases {b : Buf} {s t : State} (h : execRead b s = .next t) :
    (b = .tx ∧ t = raiseFault .eOwner (encode (.read .tx)) s) ∨
      (b = .rx ∧ ∃ y x u, readByte .rx s = .ok (y, x, u) ∧ t = u.setResp (respOfRead y x)) := by
  cases b with
  | tx =>
    cases h
    exact .inl ⟨rfl, rfl⟩
  | rx =>
    simp only [execRead, ne_eq, not_true_eq_false, if_false] at h
    split at h <;> cases h
    next hr => exact .inr ⟨rfl, _, _, _, hr, rfl⟩

/-- What a ring command of the task that is not turned away leaves in the rings. -/
structure TaskRings (s u : State) : Prop where
  only : RingsOnly s u
  rxWc : u.rx.wc = s.rx.wc
  txRc : u.tx.rc = s.tx.rc
  wf : (∀ b, ringWf s b) → ∀ b, ringWf u b

theorem TaskRings.reserve (s : State) : TaskRings s (reserve .tx s).2 where
  only := .setRing s .tx _
  rxWc := rfl
  txRc := rfl
  wf h c := ringWf_reserve (h .tx) (h c)

theorem TaskRings.store {s u : State} {i : Nat} {v : Byte} (h : store .tx i v s = .ok u) : TaskRings s u where
  only := store_ringsOnly h
  rxWc := by rw [(memWrite_eq_ok.mp h).2]; simp
  txRc := by rw [(memWrite_eq_ok.mp h).2]; simp
  wf hs c := store_ringWf (hs c) h

theorem TaskRings.push {s u : State} {v : Byte} (h : push .tx v s = .ok u) : TaskRings s u where
  only := push_ringsOnly h
  rxWc := congrArg Ring.wc (push_tx_rx h)
  txRc := push_rc h
  wf hs c := push_ringWf (hs .tx) (hs c) h

theorem TaskRings.read {s u : State} {y : Bool} {x : Byte} (h : readByte .rx s = .ok (y, x, u)) :
    TaskRings s u where
  only := readByte_ringsOnly h
  rxWc := readByte_wc h
  txRc := congrArg Ring.rc (readByte_rx_tx h)
  wf hs c := readByte_ringWf (hs .rx) (hs c) h

/-- A value of at most 16 bits leaves RESP[31:16] = 0 (10_state R36). -/
theorem extractLsb'_setWidth_high {n : Nat} (hn : n ≤ 16) (x : BitVec n) :
    (x.setWidth 32).extractLsb' 16 16 = 0#16 := by
  ext k hk
  simp [BitVec.getLsbD_of_ge x (16 + k) (by omega)]

theorem extractLsb'_zero_high : (0#32).extractLsb' 16 16 = 0#16 := by decide

/-- The ways writing the word `w` to CMD reaches `t` from `s` (30_encoding R77). -/
inductive CommandMove (w : Word) (s t : State) : Prop where
  | fault (c : FaultCode) (hc : commandFault s.params w = some c) (ht : t = raiseFault c w s)
  | ring (u : State) (r : Word) (hu : TaskRings s u) (hr : r.extractLsb' 16 16 = 0#16)
      (ht : t = u.setResp r)
  | arm (src : Buf) (ht : t = (devSetMask src s).setResp 0#32)

theorem exec_cases {i : Instr} {s t : State} (h : exec i s = .next t) : CommandMove (encode i) s t := by
  have hfault {j : Instr} {c : FaultCode} (hj : portFault s.params j = some c) :
      CommandMove (encode j) s (raiseFault c (encode j) s) :=
    .fault c (commandFault_encode s.params j ▸ hj) rfl
  cases i with
  | resv b =>
    obtain ⟨rfl, rfl⟩ | ⟨rfl, rfl⟩ := execResv_cases h
    · exact hfault rfl
    · exact .ring _ _ (.reserve s) (extractLsb'_setWidth_high (by decide) _) rfl
  | stor b slot v =>
    obtain ⟨rfl, rfl⟩ | ⟨rfl, hs, rfl⟩ | ⟨rfl, u, hu, rfl⟩ := execStor_cases h
    · exact hfault rfl
    · exact hfault (if_pos hs)
    · exact .ring u _ (.store hu) extractLsb'_zero_high rfl
  | push b v =>
    obtain ⟨rfl, rfl⟩ | ⟨rfl, u, hu, rfl⟩ := execPush_cases h
    · exact hfault rfl
    · exact .ring u _ (.push hu) extractLsb'_zero_high rfl
  | read b =>
    obtain ⟨rfl, rfl⟩ | ⟨rfl, y, x, u, hu, rfl⟩ := execRead_cases h
    · exact hfault rfl
    · exact .ring u _ (.read hu) (extractLsb'_setWidth_high (by decide) _) rfl
  | arm src =>
    cases h
    exact .arm src rfl

theorem execute_commandMove {w : Word} {s t : State} (h : execute w s = .next t) : CommandMove w s t := by
  obtain ⟨e, he, rfl⟩ | ⟨i, hi, hx⟩ := execute_cases h
  · exact .fault .eIllegal (commandFault_of_decode_error he) rfl
  · exact encode_of_decode hi ▸ exec_cases hx

/-! ### All that a step of the task and of the device can do -/

/-- The ways a step of the task reaches `t` from `s`: it touches its program and `rdata` only, or writes a
word to CMD with its program replaced before and after (entry 9). -/
inductive TaskMove (s t : State) : Prop where
  | own (p : List TaskOp) (d : Word) (ht : t = { s with prog := p, rdata := d })
  | command (w : Word) (p q : List TaskOp) (u : State) (hu : CommandMove w { s with prog := p } u)
      (ht : t = { u with prog := q })

theorem taskOp_taskMove {op : TaskOp} {ops : List TaskOp} {s t : State} (h : taskOp op ops s = .next t) :
    TaskMove s t := by
  have hexecute {w : Word} (hw : execute w { s with prog := ops } = .next t) : TaskMove s t :=
    .command w ops t.prog t (execute_commandMove hw) rfl
  cases op with
  | cmd w => exact hexecute h
  | storAtResp data => exact hexecute h
  | pollRead n =>
    obtain ⟨u, hu, rfl⟩ := pollStep_cases h
    exact .command readWord s.prog _ u (execute_commandMove hu) rfl
  | busRead addr n =>
    obtain ⟨reg, _, _, rfl⟩ := busRead_cases h
    exact .own ops _ rfl
  | busWrite addr bytes =>
    obtain ⟨reg, b0, b1, b2, b3, _, _, hw⟩ := busWrite_cases h
    cases reg with
    | cmd => exact hexecute hw
    | resp | fault | fcmd =>
      cases hw
      exact .own ops s.rdata rfl

theorem taskStep_taskMove {s t : State} (h : taskStep s = .next t) : TaskMove s t := by
  obtain rfl | ⟨op, ops, _, _, hop⟩ := taskStep_cases h
  · exact .own t.prog t.rdata rfl
  · exact taskOp_taskMove hop

/-- The ways a step of the device reaches `t` from `s` (60_exceptions R143). -/
inductive DeviceMove (d : DeviceStep) (s t : State) : Prop where
  | arrive (v : Byte) (hd : d = .arrive v) (hl : s.rxf.length < s.params.rxDepth)
      (ht : t = { s with rxf := s.rxf ++ [v], wireIn := s.wireIn ++ [v] })
  | depart (v : Byte) (rest : List Byte) (hx : s.txf = v :: rest)
      (ht : t = { s with txf := rest, wireOut := s.wireOut ++ [v] })
  | pending (p q : Bool) (ht : t = { s with pRx := p, pTx := q })

theorem deviceStep_cases {d : DeviceStep} {s t : State} (h : deviceStep d s = .next t) :
    DeviceMove d s t := by
  cases d with
  | arrive v =>
    simp only [deviceStep, deviceArrive] at h
    split at h <;> cases h
    next hl => exact .arrive v rfl hl rfl
  | depart =>
    simp only [deviceStep, deviceDepart] at h
    split at h <;> cases h
    next => exact .pending s.pRx s.pTx rfl
    next v rest hx => exact .depart v rest hx rfl
  | raiseRx | raiseTx =>
    cases h
    exact .pending _ _ rfl

/-! ### The invariant -/

/-- What a primitive does to the rings keeps the invariant if it keeps the rings well-formed. -/
theorem RingsOnly.inv {s u : State} (hu : RingsOnly s u) (hi : s.Inv) (hr : ∀ b, ringWf u b) : u.Inv := by
  obtain ⟨hrxf, htxf, _⟩ := hu.fifosSame
  obtain ⟨⟨hp, _, _⟩, ⟨hph, hrx, htx, _⟩, hresp, ⟨hf, hc⟩, _, _⟩ := hu
  constructor
  · exact hp ▸ hi.params
  · exact hr
  · exact hresp ▸ hi.resp
  · simpa only [faultWf, hp, hf, hc] using hi.fault
  · simpa only [phaseWf, hph, hrx, htx] using hi.phase
  · rw [hrxf, hp]
    exact hi.rxf
  · rw [htxf, hp]
    exact hi.txf

theorem State.Inv.push {s u : State} {b : Buf} {v : Byte} (hi : s.Inv) (h : push b v s = .ok u) : u.Inv :=
  (push_ringsOnly h).inv hi fun c => push_ringWf (hi.rings b) (hi.rings c) h

theorem State.Inv.readByte {s u : State} {b : Buf} {y : Bool} {x : Byte} (hi : s.Inv)
    (h : readByte b s = .ok (y, x, u)) : u.Inv :=
  (readByte_ringsOnly h).inv hi fun c => readByte_ringWf (hi.rings b) (hi.rings c) h

theorem State.Inv.setResp {s : State} {w : Word} (hi : s.Inv) (hw : w.extractLsb' 16 16 = 0#16) :
    (s.setResp w).Inv :=
  { hi with resp := hw }

/-- A fault is recorded with the word that raises it. -/
theorem State.Inv.raiseFault {s : State} {c : FaultCode} {w : Word} (hi : s.Inv)
    (hc : commandFault s.params w = some c) : (raiseFault c w s).Inv := by
  unfold Machine.raiseFault
  split
  · exact hi.setResp extractLsb'_zero_high
  · exact { hi with resp := extractLsb'_zero_high, fault := .inr ⟨c, hc, rfl⟩ }

theorem CommandMove.inv {w : Word} {s t : State} (h : CommandMove w s t) (hi : s.Inv) : t.Inv := by
  cases h with
  | fault c hc ht => exact ht ▸ hi.raiseFault hc
  | ring u r hu hr ht => exact ht ▸ (hu.only.inv hi (hu.wf hi.rings)).setResp hr
  | arm src ht =>
    subst ht
    cases src <;> exact { hi with resp := extractLsb'_zero_high }

theorem TaskMove.inv {s t : State} (h : TaskMove s t) (hi : s.Inv) : t.Inv := by
  cases h with
  | own p d ht => exact ht ▸ { hi with }
  | command w p q u hu ht => exact ht ▸ { hu.inv { hi with } with }

theorem DeviceMove.inv {d : DeviceStep} {s t : State} (h : DeviceMove d s t) (hi : s.Inv) : t.Inv := by
  cases h with
  | arrive v hd hl ht => exact ht ▸ { hi with rxf := by simpa using hl }
  | depart v rest hx ht =>
    have hl := hi.txf
    rw [hx, List.length_cons] at hl
    exact ht ▸ { hi with txf := Nat.le_of_succ_le hl }
  | pending p q ht => exact ht ▸ { hi with }

/-- In the RX half LAT_RX = 1. -/
theorem State.Inv.latRx {s : State} (hi : s.Inv) (hp : s.ph ∈ [Phase.rxAck, .rxDrain, .rxDelim]) :
    s.latRx = true := by
  have h := hi.phase
  unfold phaseWf at h
  split at h <;> simp_all

/-- In the TX half LAT_TX = 1. -/
theorem State.Inv.latTx {s : State} (hi : s.Inv) (hp : s.ph ∈ [Phase.txAck, .txEmpty, .txFill, .txMask]) :
    s.latTx = true := by
  have h := hi.phase
  unfold phaseWf at h
  split at h <;> simp_all

theorem State.Inv.setPh {s : State} {ph : Phase} (hi : s.Inv) (hp : phaseWf (s.setPh ph)) :
    (s.setPh ph).Inv :=
  { hi with phase := hp }

/-- Entry goes to the half whose source it latched: with IRQ = 1 and LAT_RX = 0, LAT_TX = 1 (R111). -/
theorem phaseWf_takeInterrupt {s : State} (hi : irq s = true) : phaseWf (takeInterrupt s) := by
  cases hrx : statusRx s <;> simp_all [phaseWf, takeInterrupt, devReadStatus, irq]

theorem IsrMove.inv {s t : State} (h : IsrMove s t) (hi : s.Inv) : t.Inv := by
  cases h with
  | entry _ hq ht => exact ht ▸ { hi with phase := phaseWf_takeInterrupt hq }
  | wait _ _ ht => exact ht ▸ hi
  | rxAck hp ht => exact ht ▸ { hi with phase := hi.latRx (by simp [hp]) }
  | rxByte v rest u hp hx hu ht =>
    have hl := hi.rxf
    rw [hx, List.length_cons] at hl
    have hpop : ({ s with rxf := rest } : State).Inv := { hi with rxf := Nat.le_of_succ_le hl }
    have hlat : u.latRx = true := (push_ringsOnly hu).latRx.trans (hi.latRx (by simp [hp]))
    exact ht ▸ (hpop.push hu).setPh hlat
  | rxDone hp _ ht => exact ht ▸ hi.setPh (hi.latRx (by simp [hp]))
  | rxDelim u hp hu ht =>
    have hlat : u.latTx = s.latTx := (push_ringsOnly hu).latTx
    subst ht
    refine (hi.push hu).setPh ?_
    split
    next h => exact hlat.trans h
    next => trivial
  | txAck hp ht => exact ht ▸ { hi with phase := hi.latTx (by simp [hp]) }
  | txEmpty hp ht =>
    subst ht
    refine hi.setPh ?_
    split
    next => exact hi.latTx (by simp [hp])
    next => trivial
  | txFull _ _ ht => exact ht ▸ hi.setPh trivial
  | txByte x u hp hl hu ht =>
    have hlat : u.latTx = true := (readByte_ringsOnly hu).latTx.trans (hi.latTx (by simp [hp]))
    have hlen : (u.txf ++ [x]).length ≤ u.params.txDepth := by
      rw [(readByte_ringsOnly hu).fifosSame.2.1, (readByte_ringsOnly hu).params, List.length_append]
      exact Nat.lt_of_le_of_ne hi.txf hl
    exact ht ▸ { hi.readByte hu with phase := hlat, txf := hlen }
  | txNone x u hp _ hu ht =>
    have hlat : u.latTx = true := (readByte_ringsOnly hu).latTx.trans (hi.latTx (by simp [hp]))
    exact ht ▸ { hi.readByte hu with phase := hlat }
  | txMask _ ht => exact ht ▸ { hi with phase := trivial }

/-- A ring just reset is well-formed, whatever the capacity. -/
theorem ringWf_of_reset {s : State} {b : Buf} (h : s.ring b = Ring.reset) : ringWf s b := by
  unfold ringWf
  rw [h]
  exact ⟨Nat.zero_le _, Nat.zero_le _, Memory.wf_nil _, by simp [Ring.reset]⟩

theorem State.Inv.blockReset {s : State} (hi : s.Inv) : (blockReset s).Inv :=
  { hi with
    rings := fun b => ringWf_of_reset (by cases b <;> rfl)
    resp := extractLsb'_zero_high
    fault := .inl ⟨rfl, rfl⟩
    phase := trivial }

theorem agentStep_inv {a : Agent} {s t : State} (hi : s.Inv) (h : agentStep a s = .next t) : t.Inv := by
  cases a with
  | task => exact (taskStep_taskMove h).inv hi
  | isr => exact (isrStep_cases h).inv hi
  | device d => exact (deviceStep_cases h).inv hi
  | platformReset =>
    cases h
    exact hi.blockReset

/-- Settles O54: each agent's moves keep the invariant, and it does not read the schedule. -/
theorem stepKeepsTheInvariant : Obligations.StepKeepsTheInvariant := by
  intro s t hi h
  obtain ⟨_, rfl⟩ | ⟨a, rest, _, ha⟩ := step_cases h
  · exact hi
  · have hrest : ({ s with sched := rest } : State).Inv := { hi with }
    exact agentStep_inv hrest ha

theorem Params.default_wf : Params.default.wf := by
  simp [Params.wf, Params.default]

theorem State.launch_inv {p : Params} (hp : p.wf) (prog : List TaskOp) (sched : List Agent) :
    (State.launch p prog sched).Inv where
  params := hp
  rings b := ringWf_of_reset (by cases b <;> rfl)
  resp := extractLsb'_zero_high
  fault := .inl ⟨rfl, rfl⟩
  phase := trivial
  rxf := Nat.zero_le _
  txf := Nat.zero_le _

/-- Settles O53: both are launch states. -/
theorem resetMeetsTheInvariant : Obligations.ResetMeetsTheInvariant :=
  ⟨fun _ prog sched hp => State.launch_inv hp prog sched, State.launch_inv Params.default_wf [] []⟩

/-! ### What the commands leave unchanged -/

/-- Settles O17: RB.RESV records a fault or moves WC[TX], and IRQ.ARM sets its bit. -/
theorem registerCommandsFrame : Obligations.RegisterCommandsFrame := by
  refine ⟨fun b s t h => ?_, fun src s t h => ?_⟩
  · obtain ⟨rfl, rfl⟩ | ⟨rfl, rfl⟩ := execResv_cases h
    · obtain ⟨hmodel, hseq, henv, htask, hrx, htx⟩ := raiseFault_frame .eOwner (encode (.resv .rx)) s
      exact ⟨hmodel, hseq, henv, htask, hrx, by simp [htx]⟩
    · have hu := (TaskRings.reserve s).only
      exact ⟨hu.model, hu.seq, hu.env, hu.task, rfl, rfl, nofun, fun _ => hu.fault,
        fun c a => slot_reserve .tx c s a⟩
  · cases h
    have hslot (c : Buf) (a : Nat) : ((devSetMask src s).setResp 0#32).slot c a = s.slot c a :=
      State.slot_congr (by cases src <;> rfl) (by cases src <;> cases c <;> rfl) a
    cases src <;> simp [devSetMask, modelSame, seqSame, faultSame, taskSame] <;> exact hslot

/-- Settles O18: each storing command records a fault, which touches no ring, or is one primitive on one
ring followed by its answer in RESP. -/
theorem storingCommandsFrame : Obligations.StoringCommandsFrame := by
  refine ⟨fun b slot v s t h => ?_, fun b v s t h => ?_, fun b s t h => ?_⟩
  · obtain ⟨rfl, rfl⟩ | ⟨rfl, hs, rfl⟩ | ⟨rfl, u, hu, rfl⟩ := execStor_cases h
    · obtain ⟨hmodel, hseq, henv, htask, hrx, htx⟩ := raiseFault_frame .eOwner (encode (.stor .rx slot v)) s
      exact ⟨hmodel, hseq, henv, htask, hrx, by simp [htx]⟩
    · obtain ⟨hmodel, hseq, henv, htask, hrx, htx⟩ := raiseFault_frame .eSlot (encode (.stor .tx slot v)) s
      exact ⟨hmodel, hseq, henv, htask, hrx, by simp [htx, Nat.not_le.mpr hs]⟩
    · have hk := store_ringsOnly hu
      obtain ⟨hle, rfl⟩ := memWrite_eq_ok.mp hu
      exact ⟨hk.model, hk.seq, hk.env, hk.task, rfl, rfl, rfl, fun _ _ => hk.fault,
        by simp [Nat.not_lt.mpr hle], fun a => State.slot_writeSlot_other s v (.inl nofun),
        fun a ha => State.slot_writeSlot_other s v (.inr ha)⟩
  · obtain ⟨rfl, rfl⟩ | ⟨rfl, u, hu, rfl⟩ := execPush_cases h
    · obtain ⟨hmodel, hseq, henv, htask, hrx, htx⟩ := raiseFault_frame .eOwner (encode (.push .rx v)) s
      exact ⟨hmodel, hseq, henv, htask, hrx, by simp [htx]⟩
    · have hk := push_ringsOnly hu
      refine ⟨hk.model, hk.seq, hk.env, hk.task, (push_tx_rx hu :), push_rc hu, fun _ => hk.fault, nofun,
        fun a => ?_, fun a ha => ?_⟩
      · rw [State.slot_setResp]
        exact push_slot_other hu (.inl nofun)
      · rw [State.slot_setResp]
        exact push_slot_other hu (.inr ha)
  · obtain ⟨rfl, rfl⟩ | ⟨rfl, y, x, u, hu, rfl⟩ := execRead_cases h
    · obtain ⟨hmodel, hseq, henv, htask, hrx, htx⟩ := raiseFault_frame .eOwner (encode (.read .tx)) s
      exact ⟨hmodel, hseq, henv, htask, htx, by simp [hrx]⟩
    · have hk := readByte_ringsOnly hu
      refine ⟨hk.model, hk.seq, hk.env, hk.task, (readByte_rx_tx hu :), readByte_wc hu, fun _ => hk.fault,
        fun he => ?_, fun a => ?_, fun a ha => ?_⟩
      · rw [readByte_eq_of_empty hu (he.resolve_left nofun), State.setResp_rx]
      · rw [State.slot_setResp]
        exact readByte_slot_other hu (.inl nofun)
      · rw [State.slot_setResp]
        exact readByte_slot_other hu (.inr ha)

/-! ### Visible -/

/-- Settles O19: with both cursors in range WC − RC lies strictly between −C and C. -/
theorem visibleIsAtMostCapacityLessOne : Obligations.VisibleIsAtMostCapacityLessOne := by
  intro s b ⟨hp, _⟩ ⟨hrc, hwc, _⟩
  rw [Ring.visible_eq hrc hwc hp, Ring.isEmpty_iff]
  rw [Params.last_eq] at hrc hwc
  split <;> omega

/-! ### Who moves a cursor -/

theorem CommandMove.cursors {w : Word} {s t : State} (h : CommandMove w s t) :
    t.rx.wc = s.rx.wc ∧ t.tx.rc = s.tx.rc := by
  cases h with
  | fault c _ ht =>
    obtain ⟨_, _, _, _, hrx, htx⟩ := raiseFault_frame c w s
    exact ht ▸ ⟨congrArg Ring.wc hrx, congrArg Ring.rc htx⟩
  | ring u r hu _ ht => exact ht ▸ ⟨hu.rxWc, hu.txRc⟩
  | arm src ht =>
    subst ht
    cases src <;> exact ⟨rfl, rfl⟩

theorem TaskMove.cursors {s t : State} (h : TaskMove s t) : t.rx.wc = s.rx.wc ∧ t.tx.rc = s.tx.rc := by
  cases h with
  | own p d ht => exact ht ▸ ⟨rfl, rfl⟩
  | command w p q u hu ht => exact ht ▸ hu.cursors

theorem IsrMove.cursors {s t : State} (h : IsrMove s t) : t.rx.rc = s.rx.rc ∧ t.tx.wc = s.tx.wc := by
  cases h with
  | rxByte v rest u _ _ hu ht | rxDelim u _ hu ht =>
    exact ht ▸ ⟨push_rc hu, congrArg Ring.wc (push_rx_tx hu :)⟩
  | txByte x u _ _ hu ht | txNone x u _ _ hu ht =>
    exact ht ▸ ⟨congrArg Ring.rc (readByte_tx_rx hu :), readByte_wc hu⟩
  | entry _ _ ht | wait _ _ ht | rxAck _ ht | rxDone _ _ ht | txAck _ ht | txEmpty _ ht | txFull _ _ ht
  | txMask _ ht => exact ht ▸ ⟨rfl, rfl⟩

/-- Settles O38: the task pushes to TX and reads from RX, the sequencer the other way round. -/
theorem eachCursorHasOneWriter : Obligations.EachCursorHasOneWriter := by
  refine ⟨fun s t h => (taskStep_taskMove h).cursors, fun s t h => (isrStep_cases h).cursors,
    fun s t d h => ?_⟩
  obtain ⟨_, _, _, _, _, hrx, htx⟩ := deviceStep_frame h
  exact ⟨hrx, htx⟩

/-! ### The bytes through the FIFOs -/

theorem CommandMove.fifosSame {w : Word} {s t : State} (h : CommandMove w s t) : fifosSame s t := by
  cases h with
  | fault c hc ht =>
    obtain ⟨_, _, henv, _⟩ := raiseFault_frame c w s
    exact ht ▸ henv.fifosSame
  | ring u r hu _ ht => exact ht ▸ hu.only.fifosSame
  | arm src ht =>
    subst ht
    cases src <;> exact ⟨rfl, rfl, rfl, rfl⟩

theorem TaskMove.fifosSame {s t : State} (h : TaskMove s t) : fifosSame s t := by
  cases h with
  | own p d ht => exact ht ▸ ⟨rfl, rfl, rfl, rfl⟩
  | command w p q u hu ht => exact ht ▸ (hu.fifosSame :)

/-- A sequencer step appends to TXF only in TX_FILL with data in the ring, the byte at RC[TX] (R117). -/
theorem IsrMove.wireOut_append_txf {s t : State} (h : IsrMove s t) :
    t.wireOut ++ t.txf = s.wireOut ++ s.txf ∨
      (s.ph = .txFill ∧ s.tx.rc ≠ s.tx.wc ∧
        t.wireOut ++ t.txf = s.wireOut ++ s.txf ++ [s.slot .tx s.tx.rc]) := by
  cases h with
  | txByte x u hp _ hu ht =>
    obtain ⟨hne, rfl, _⟩ := readByte_true hu
    obtain ⟨_, htxf, _, hout⟩ := (readByte_ringsOnly hu).fifosSame
    exact .inr ⟨hp, hne, by simp [ht, htxf, hout]⟩
  | txNone x u _ _ hu ht =>
    obtain ⟨_, htxf, _, hout⟩ := (readByte_ringsOnly hu).fifosSame
    exact .inl (by simp [ht, htxf, hout])
  | rxByte v rest u _ _ hu ht | rxDelim u _ hu ht =>
    obtain ⟨_, htxf, _, hout⟩ := (push_ringsOnly hu).fifosSame
    exact .inl (by simp [ht, htxf, hout])
  | entry _ _ ht | wait _ _ ht | rxAck _ ht | rxDone _ _ ht | txAck _ ht | txEmpty _ ht | txFull _ _ ht
  | txMask _ ht => exact .inl (ht ▸ rfl)

/-- A sequencer step takes the head of RXF, if there is one, in RX_DRAIN, and nothing elsewhere (R113). -/
theorem IsrMove.rxf_and_wireIn {s t : State} (h : IsrMove s t) :
    s.rxf = (if s.ph = .rxDrain then s.rxf.take 1 else []) ++ t.rxf ∧ t.wireIn = s.wireIn := by
  cases h with
  | rxByte v rest u hp hx hu ht =>
    obtain ⟨hrxf, _, hwire, _⟩ := (push_ringsOnly hu).fifosSame
    simp [ht, hrxf, hwire, hp, hx]
  | rxDelim u hp hu ht =>
    obtain ⟨hrxf, _, hwire, _⟩ := (push_ringsOnly hu).fifosSame
    simp [ht, hrxf, hwire, hp]
  | txByte x u hp _ hu ht | txNone x u hp _ hu ht =>
    obtain ⟨hrxf, _, hwire, _⟩ := (readByte_ringsOnly hu).fifosSame
    simp [ht, hrxf, hwire, hp]
  | rxDone hp hx ht => simp [ht, hp, hx]
  | entry hp _ ht | wait hp _ ht | rxAck hp ht | txAck hp ht | txEmpty hp ht | txFull hp _ ht
  | txMask hp ht => simp [ht, takeInterrupt, hp]

/-- Settles O40: a departure moves the head of TXF to the end of WIRE_OUT, and of the other moves only the
sequencer's touch them. -/
theorem transmittedBytesKeepTheirOrder : Obligations.TransmittedBytesKeepTheirOrder := by
  intro a s t h
  cases a with
  | task =>
    obtain ⟨_, htxf, _, hout⟩ := (taskStep_taskMove h).fifosSame
    exact .inl (by rw [htxf, hout])
  | isr => exact (isrStep_cases h).wireOut_append_txf.imp_right fun hfill => ⟨rfl, hfill⟩
  | device d =>
    cases deviceStep_cases h with
    | depart v rest hx ht => exact .inl (by simp [ht, hx])
    | arrive v _ _ ht | pending p q ht => exact .inl (ht ▸ rfl)
  | platformReset =>
    cases h
    exact .inl rfl

/-- Settles O41: an arrival appends its byte to RXF and to WIRE_IN, and of the other moves only the
sequencer's touch RXF. -/
theorem receivedBytesKeepTheirOrder : Obligations.ReceivedBytesKeepTheirOrder := by
  intro a s t drained hin h
  cases a with
  | task =>
    obtain ⟨hrxf, _, hwire, _⟩ := (taskStep_taskMove h).fifosSame
    simp [hrxf, hwire, hin]
  | isr =>
    obtain ⟨hrxf, hwire⟩ := (isrStep_cases h).rxf_and_wireIn
    simp only [true_and]
    exact ⟨by rw [hwire, hin, List.append_assoc, ← hrxf], .inl hwire⟩
  | device d =>
    cases deviceStep_cases h with
    | arrive v hd _ ht => simp [ht, hin, hd]
    | depart v rest _ ht | pending p q ht => simp [ht, hin]
  | platformReset =>
    cases h
    simp [blockReset, hin]

/-! ### What a reset writes -/

/-- Settles O51: the reset's record update, field by field; a reset ring lists no slot. -/
theorem resetSetsTheBlockState : Obligations.ResetSetsTheBlockState := by
  intro s
  refine ⟨blockReset s, rfl, fun b => ?_, rfl, rfl, rfl, rfl, rfl, rfl, rfl, ?_, ⟨rfl, rfl⟩, rfl, rfl⟩
  · cases b <;> exact ⟨rfl, rfl, fun _ => rfl⟩
  · exact ⟨rfl, rfl, rfl, rfl, rfl, rfl, rfl, rfl⟩

end Sys2Proof.Machine

/-! ## Proofs of the memory statements (20_memory)

The port window and the bus accesses, the moves of agents that are not enabled, and what every move answers
from a state that meets the invariant. -/

namespace Sys2Proof.Machine

/-! ### The port registers in their window -/

/-- The four port registers stand at four different addresses (R52). -/
@[simp] theorem portRegAt_blockBase_add_offset (p : Params) (reg : PortReg) :
    portRegAt p (p.blockBase + reg.offset) = some reg := by
  cases reg <;> simp [portRegAt, PortReg.offset]

@[simp] theorem inWindow_blockBase_add_offset (p : Params) (reg : PortReg) :
    inWindow p (p.blockBase + reg.offset) = true := by
  cases reg <;> simp [inWindow, PortReg.offset]

theorem eq_blockBase_add_offset_of_portRegAt {p : Params} {addr : Nat} {reg : PortReg}
    (h : portRegAt p addr = some reg) : addr = p.blockBase + reg.offset := by
  unfold portRegAt at h
  split_ifs at h <;> cases h <;> assumption

theorem PortReg.offset_mod_four (reg : PortReg) : reg.offset % 4 = 0 := by
  cases reg <;> rfl

theorem portRegAt_eq_none_of_misaligned {p : Params} {addr : Nat} (hp : p.blockBase % 4 = 0)
    (ha : addr % 4 ≠ 0) : portRegAt p addr = none := by
  rw [Option.eq_none_iff_forall_ne_some]
  intro reg h
  have haddr := eq_blockBase_add_offset_of_portRegAt h
  have hoff := reg.offset_mod_four
  omega

theorem inWindow_eq_true {p : Params} {addr : Nat} :
    inWindow p addr = true ↔ p.blockBase ≤ addr ∧ addr < p.blockBase + 0x10 := by
  simp [inWindow]

/-! ### The bus accesses -/

theorem busRead_port (reg : PortReg) (s : State) :
    busRead (s.params.blockBase + reg.offset) 4 s = .next { s with rdata := portRead reg s } := by
  simp [busRead]

theorem busWrite_port (reg : PortReg) (b0 b1 b2 b3 : Byte) (s : State) :
    busWrite (s.params.blockBase + reg.offset) [b0, b1, b2, b3] s =
      portWrite reg (wordOfBytes b0 b1 b2 b3) s := by
  simp [busWrite]

theorem busWrite_port_bytesOfWord (reg : PortReg) (w : Word) (s : State) :
    busWrite (s.params.blockBase + reg.offset) (bytesOfWord w) s = portWrite reg w s := by
  rw [bytesOfWord, busWrite_port, wordOfBytes_bytesOfWord]

theorem busRead_outside {addr : Nat} {s : State} (n : Nat)
    (h : addr < s.params.blockBase ∨ s.params.blockBase + 0x10 ≤ addr) :
    busRead addr n s = .refused (.notThisBlock addr) :=
  if_pos (inWindow_eq_false.mpr h)

theorem busWrite_outside {addr : Nat} {s : State} (bytes : List Byte)
    (h : addr < s.params.blockBase ∨ s.params.blockBase + 0x10 ≤ addr) :
    busWrite addr bytes s = .refused (.notThisBlock addr) :=
  if_pos (inWindow_eq_false.mpr h)

theorem busRead_misshapen {addr n : Nat} {s : State} (hp : s.params.blockBase % 4 = 0)
    (hlow : s.params.blockBase ≤ addr) (hhigh : addr < s.params.blockBase + 0x10)
    (h : n ≠ 4 ∨ addr % 4 ≠ 0) : busRead addr n s = .refused (.portAccessShape addr n) := by
  have hw : inWindow s.params addr = true := inWindow_eq_true.mpr ⟨hlow, hhigh⟩
  by_cases hn : n = 4
  · have hreg := portRegAt_eq_none_of_misaligned hp (h.resolve_left (not_not.mpr hn))
    simp [busRead, hw, hn, hreg]
  · simp [busRead, hw, hn]

theorem busWrite_misshapen {addr : Nat} {bytes : List Byte} {s : State}
    (hp : s.params.blockBase % 4 = 0) (hlow : s.params.blockBase ≤ addr)
    (hhigh : addr < s.params.blockBase + 0x10) (h : bytes.length ≠ 4 ∨ addr % 4 ≠ 0) :
    busWrite addr bytes s = .refused (.portAccessShape addr bytes.length) := by
  have hw : inWindow s.params addr = true := inWindow_eq_true.mpr ⟨hlow, hhigh⟩
  simp only [busWrite, hw, Bool.true_eq_false, if_false]
  split
  next =>
    have hreg := portRegAt_eq_none_of_misaligned hp (h.resolve_left (not_not.mpr rfl))
    simp [hreg]
  next => rfl

/-- Settles O46: no misaligned address of the window names a port register. -/
theorem otherPortAccessesAreRefused : Obligations.OtherPortAccessesAreRefused :=
  fun _ _ n bytes ⟨_, _, _, _, hp⟩ =>
    ⟨fun h => ⟨busRead_outside n h, busWrite_outside bytes h⟩,
      fun hlow hhigh => ⟨busRead_misshapen hp hlow hhigh, busWrite_misshapen hp hlow hhigh⟩⟩

/-- Settles O45: the access of each register, at its offset from BLOCK_BASE. -/
theorem portRegisterMap : Obligations.PortRegisterMap := fun s w =>
  ⟨busRead_port .cmd s, busRead_port .resp s, busRead_port .fault s, busRead_port .fcmd s,
    busWrite_port_bytesOfWord .cmd w s, busWrite_port_bytesOfWord .resp w s,
    busWrite_port_bytesOfWord .fault w s, busWrite_port_bytesOfWord .fcmd w s⟩

/-! ### Agents that are not enabled -/

theorem taskStep_of_disabled {s : State} (h : enabled .task s = false) : taskStep s = .next s := by
  unfold taskStep
  split
  next hph =>
    split
    next => rfl
    next op ops hprog => simp [enabled, hph, hprog] at h
  next => rfl

theorem isrStep_of_disabled {s : State} (h : enabled .isr s = false) : isrStep s = .next s := by
  simp only [enabled, Bool.or_eq_false_iff, bne_eq_false_iff_eq] at h
  obtain ⟨hph, hirq⟩ := h
  simp [isrStep, hph, isrIdle, hirq]

theorem deviceStep_of_disabled {d : DeviceStep} {s : State} (h : enabled (.device d) s = false) :
    deviceStep d s = .next s ∨ ((∃ v, d = .arrive v) ∧ deviceStep d s = .refused .arriveAtFullFifo) := by
  cases d with
  | arrive v => exact .inr ⟨⟨v, rfl⟩, if_neg (of_decide_eq_false h)⟩
  | depart =>
    have htxf : s.txf = [] := by simpa [enabled] using h
    exact .inl (by simp [deviceStep, deviceDepart, htxf])
  | raiseRx | raiseTx => cases h

/-- Settles O43: agent by agent; a reset is always enabled. -/
theorem disabledAgentsDoNotStep : Obligations.DisabledAgentsDoNotStep := by
  refine ⟨fun s hph => by simp [enabled, hph], fun s hph => by simp [enabled, hph], fun a s h => ?_⟩
  cases a with
  | task => exact .inl (taskStep_of_disabled h)
  | isr => exact .inl (isrStep_of_disabled h)
  | device d =>
    refine (deviceStep_of_disabled h).imp_right fun ⟨⟨v, hd⟩, href⟩ => ⟨⟨v, ?_⟩, href⟩
    rw [hd]
  | platformReset => cases h

/-! ### The agent and the command a step runs -/

theorem step_of_sched_nil {s : State} (h : s.sched = []) : step s = .next s := by
  simp [step, scheduledStep, h]

theorem step_of_sched_cons {s : State} {a : Agent} {rest : List Agent} (h : s.sched = a :: rest) :
    step s = agentStep a { s with sched := rest } := by
  simp [step, scheduledStep, h]

theorem taskStep_of_prog_cons {s : State} {op : TaskOp} {ops : List TaskOp} (hph : s.ph = .idle)
    (hprog : s.prog = op :: ops) : taskStep s = taskOp op ops s := by
  simp [taskStep, hph, hprog]

theorem execute_of_decode_ok {w : Word} {i : Instr} (h : decode w = .ok i) (s : State) :
    execute w s = exec i s := by
  simp [execute, h]

theorem execute_of_decode_error {w : Word} {e : DecodeError} (h : decode w = .error e) (s : State) :
    execute w s = .next (raiseFault .eIllegal w s) := by
  simp [execute, h]

/-- When the task is named in IDLE with a command word as its next item, the step is Execute of that word. -/
theorem step_of_cmd {s : State} {w : Word} {ops : List TaskOp} {rest : List Agent}
    (hsched : s.sched = .task :: rest) (hph : s.ph = .idle) (hprog : s.prog = .cmd w :: ops) :
    step s = execute w { s with sched := rest, prog := ops } := by
  rw [step_of_sched_cons hsched]
  exact taskStep_of_prog_cons (s := { s with sched := rest }) hph hprog

theorem decodeTableWord_eq_some {n w : Nat} {i : Instr} :
    decodeTableWord n w = some i ↔ decode (tableWord n w) = .ok i := by
  simp only [decodeTableWord, bytesOfWord, decodeBytes, wordOfBytes_bytesOfWord]
  cases decode (tableWord n w) <;> simp

/-- Settles O44: the task's step on a command word is Execute of it, whose two cases are those of decode. -/
theorem stepRunsTheDecodedCommand : Obligations.StepRunsTheDecodedCommand := by
  refine ⟨fun s w ops rest i hsched hph hprog hd => ?_, fun s w ops rest e hsched hph hprog hd => ?_,
    fun s a rest => step_of_sched_cons, fun s n w i hd => ?_⟩
  · rw [step_of_cmd hsched hph hprog, execute_of_decode_ok hd]
  · rw [step_of_cmd hsched hph hprog, execute_of_decode_error hd]
  · rw [State.withFetchWord, step_of_cmd rfl rfl rfl,
      execute_of_decode_ok (decodeTableWord_eq_some.mp hd)]
    rfl

/-! ### What answers from a state that meets the invariant -/

theorem exists_finish {e : Except Fault State} (after : State → State) (h : ∃ u, e = .ok u) :
    ∃ t, finish after e = .next t := by
  obtain ⟨u, hu⟩ := h
  exact ⟨after u, congrArg (finish after) hu⟩

section
variable {s : State} (hi : s.Inv)
include hi

theorem State.Inv.rc_le_last (b : Buf) : (s.ring b).rc ≤ s.params.last := by
  obtain ⟨hrc, _⟩ := hi.rings b
  exact hrc

theorem State.Inv.wc_le_last (b : Buf) : (s.ring b).wc ≤ s.params.last := by
  obtain ⟨_, hwc, _⟩ := hi.rings b
  exact hwc

theorem State.Inv.exists_readByte (b : Buf) : ∃ y x t, Machine.readByte b s = .ok (y, x, t) := by
  cases he : (s.ring b).isEmpty with
  | true => exact ⟨_, _, _, readByte_empty (hi.rc_le_last b) he⟩
  | false => exact ⟨_, _, _, readByte_data (hi.rc_le_last b) he⟩

theorem State.Inv.exists_push (b : Buf) (v : Byte) : ∃ t, Machine.push b v s = .ok t :=
  ⟨_, push_ok (hi.wc_le_last b)⟩

/-- RB.STOR checks its slot against END; the other commands access the slots of the cursors. -/
theorem State.Inv.exists_exec (i : Instr) : ∃ t, exec i s = .next t := by
  cases i with
  | resv b => cases b <;> exact ⟨_, rfl⟩
  | stor b slot v =>
    cases b with
    | rx => exact ⟨_, rfl⟩
    | tx =>
      by_cases hs : s.params.last < slotIndex slot
      · exact ⟨_, if_pos hs⟩
      · have hstore := memWrite_ok (b := .tx) (v := v) (Nat.not_lt.mp hs)
        simp [exec, execStor, hs, store, hstore]
  | push b v =>
    cases b with
    | rx => exact ⟨_, rfl⟩
    | tx => exact exists_finish _ (hi.exists_push .tx v)
  | read b =>
    cases b with
    | rx =>
      obtain ⟨y, x, t, ht⟩ := hi.exists_readByte .rx
      simp [exec, execRead, ht]
    | tx => exact ⟨_, rfl⟩
  | arm src => exact ⟨_, rfl⟩

theorem State.Inv.exists_execute (w : Word) : ∃ t, execute w s = .next t := by
  cases hd : decode w with
  | error e => exact ⟨_, execute_of_decode_error hd s⟩
  | ok i => exact execute_of_decode_ok hd s ▸ hi.exists_exec i

theorem State.Inv.exists_pollStep (n : Nat) (ops : List TaskOp) : ∃ t, pollStep n ops s = .next t := by
  obtain ⟨t, ht⟩ := hi.exists_execute readWord
  simp [pollStep, ht]

theorem State.Inv.exists_portWrite (reg : PortReg) (w : Word) : ∃ t, portWrite reg w s = .next t := by
  cases reg with
  | cmd => exact hi.exists_execute w
  | resp | fault | fcmd => exact ⟨s, rfl⟩

/-- The sequencer pushes to RX at WC and reads from TX at RC, both in range (10_state R29). -/
theorem State.Inv.exists_isrStep : ∃ t, isrStep s = .next t := by
  unfold isrStep
  cases s.ph with
  | rxAck | txAck | txMask => exact ⟨_, rfl⟩
  | idle | txEmpty => exact ⟨_, (apply_ite Host.Outcome.next _ _ _).symm⟩
  | rxDrain =>
    cases hx : s.rxf with
    | nil => simp [isrRxDrain, devPopRx, hx]
    | cons v rest =>
      have hl := hi.rxf
      rw [hx, List.length_cons] at hl
      have hpop : ({ s with rxf := rest } : State).Inv := { hi with rxf := Nat.le_of_succ_le hl }
      simpa [isrRxDrain, devPopRx, hx] using exists_finish _ (hpop.exists_push .rx v)
  | rxDelim => exact exists_finish _ (hi.exists_push .rx delim)
  | txFill =>
    obtain ⟨y, x, t, ht⟩ := hi.exists_readByte .tx
    cases hf : txff s <;> cases y <;> simp [isrTxFill, hf, ht]

/-- Only an arrival at a full receive FIFO is no step of the device (60_exceptions R143). -/
theorem State.Inv.deviceStep_answers (d : DeviceStep) :
    (∃ t, deviceStep d s = .next t) ∨
      ∃ v, d = .arrive v ∧ s.rxf.length = s.params.rxDepth ∧
        deviceStep d s = .refused .arriveAtFullFifo := by
  cases d with
  | arrive v =>
    by_cases hl : s.rxf.length < s.params.rxDepth
    · exact .inl ⟨_, if_pos hl⟩
    · exact .inr ⟨v, rfl, Nat.le_antisymm hi.rxf (Nat.not_lt.mp hl), if_neg hl⟩
  | depart => cases hx : s.txf <;> simp [deviceStep, deviceDepart, hx]
  | raiseRx | raiseTx => exact .inl ⟨_, rfl⟩

end

/-! ### What is refused -/

/-- The outcome `o` refuses an access of `n` bytes at `addr` that the block does not serve: as not the
block's outside the window (R52), by its shape in it (R55). -/
def AccessRefused (p : Params) (addr n : Nat) (o : Outcome) : Prop :=
  (o = .refused (.notThisBlock addr) ∧ (addr < p.blockBase ∨ p.blockBase + 0x10 ≤ addr)) ∨
    (o = .refused (.portAccessShape addr n) ∧ p.blockBase ≤ addr ∧ addr < p.blockBase + 0x10 ∧
      (n ≠ 4 ∨ addr % 4 ≠ 0))

/-- Every access of `n` bytes is outside the window, in it but misshapen, or of a whole port register. -/
theorem access_cases {p : Params} (hp : p.blockBase % 4 = 0) (addr n : Nat) :
    (addr < p.blockBase ∨ p.blockBase + 0x10 ≤ addr) ∨
      (p.blockBase ≤ addr ∧ addr < p.blockBase + 0x10 ∧ (n ≠ 4 ∨ addr % 4 ≠ 0)) ∨
      (n = 4 ∧ ∃ reg : PortReg, addr = p.blockBase + reg.offset) := by
  cases hw : inWindow p addr with
  | false => exact .inl (inWindow_eq_false.mp hw)
  | true =>
    obtain ⟨hlow, hhigh⟩ := inWindow_eq_true.mp hw
    by_cases hn : n = 4
    · cases hreg : portRegAt p addr with
      | none => exact .inr (.inl ⟨hlow, hhigh, .inr (portRegAt_eq_none hp hw hreg)⟩)
      | some reg => exact .inr (.inr ⟨hn, reg, eq_blockBase_add_offset_of_portRegAt hreg⟩)
    · exact .inr (.inl ⟨hlow, hhigh, .inl hn⟩)

/-- The item is a bus access of `n` bytes at `addr`. -/
def TaskOp.accesses (op : TaskOp) (addr n : Nat) : Prop :=
  op = .busRead addr n ∨ ∃ bytes, op = .busWrite addr bytes ∧ bytes.length = n

section
variable {s : State} (hi : s.Inv)
include hi

theorem State.Inv.blockBase_mod_four : s.params.blockBase % 4 = 0 := by
  obtain ⟨_, _, _, _, hp⟩ := hi.params
  exact hp

theorem State.Inv.busRead_answers (addr n : Nat) :
    (∃ t, busRead addr n s = .next t) ∨ AccessRefused s.params addr n (busRead addr n s) := by
  have hp := hi.blockBase_mod_four
  obtain hout | ⟨hlow, hhigh, hshape⟩ | ⟨rfl, reg, rfl⟩ := access_cases hp addr n
  · exact .inr (.inl ⟨busRead_outside n hout, hout⟩)
  · exact .inr (.inr ⟨busRead_misshapen hp hlow hhigh hshape, hlow, hhigh, hshape⟩)
  · exact .inl ⟨_, busRead_port reg s⟩

theorem State.Inv.busWrite_answers (addr : Nat) (bytes : List Byte) :
    (∃ t, busWrite addr bytes s = .next t) ∨
      AccessRefused s.params addr bytes.length (busWrite addr bytes s) := by
  have hp := hi.blockBase_mod_four
  obtain hout | ⟨hlow, hhigh, hshape⟩ | ⟨hlen, reg, rfl⟩ := access_cases hp addr bytes.length
  · exact .inr (.inl ⟨busWrite_outside bytes hout, hout⟩)
  · exact .inr (.inr ⟨busWrite_misshapen hp hlow hhigh hshape, hlow, hhigh, hshape⟩)
  · obtain ⟨b0, b1, b2, b3, rfl⟩ := List.length_eq_four.mp hlen
    exact .inl (busWrite_port reg b0 b1 b2 b3 s ▸ hi.exists_portWrite reg _)

theorem State.Inv.taskOp_answers (op : TaskOp) (ops : List TaskOp) :
    (∃ t, taskOp op ops s = .next t) ∨
      ∃ addr n, op.accesses addr n ∧ AccessRefused s.params addr n (taskOp op ops s) := by
  have hrest : ({ s with prog := ops } : State).Inv := { hi with }
  cases op with
  | cmd w => exact .inl (hrest.exists_execute w)
  | storAtResp data => exact .inl (hrest.exists_execute _)
  | pollRead n => exact .inl (hi.exists_pollStep n ops)
  | busRead addr n => exact (hrest.busRead_answers addr n).imp_right fun h => ⟨addr, n, .inl rfl, h⟩
  | busWrite addr bytes =>
    exact (hrest.busWrite_answers addr bytes).imp_right fun h => ⟨addr, _, .inr ⟨bytes, rfl, rfl⟩, h⟩

theorem State.Inv.taskStep_answers :
    (∃ t, taskStep s = .next t) ∨
      ∃ op ops addr n, s.ph = .idle ∧ s.prog = op :: ops ∧ op.accesses addr n ∧
        AccessRefused s.params addr n (taskStep s) := by
  cases he : enabled .task s with
  | false => exact .inl ⟨s, taskStep_of_disabled he⟩
  | true =>
    simp only [enabled, Bool.and_eq_true, beq_iff_eq] at he
    obtain ⟨hph, hne⟩ := he
    cases hprog : s.prog with
    | nil => simp [hprog] at hne
    | cons op ops =>
      rw [taskStep_of_prog_cons hph hprog]
      exact (hi.taskOp_answers op ops).imp_right fun ⟨addr, n, h⟩ => ⟨op, ops, addr, n, hph, rfl, h⟩

end

/-- Settles O57: agent by agent; only the task's bus accesses and the device's arrivals can be refused. -/
theorem onlyOutsideTheModelIsRefused : Obligations.OnlyOutsideTheModelIsRefused := by
  intro s hi
  cases hs : s.sched with
  | nil => exact .inl ⟨s, step_of_sched_nil hs⟩
  | cons a rest =>
    have hrest : ({ s with sched := rest } : State).Inv := { hi with }
    rw [step_of_sched_cons hs]
    cases a with
    | task =>
      obtain hnext | ⟨op, ops, addr, n, hph, hprog, hop, href⟩ := hrest.taskStep_answers
      · exact .inl hnext
      · refine .inr (.inl ⟨addr, n, rfl, hph, ?_, href⟩)
        simpa [show s.prog = op :: ops from hprog, TaskOp.accesses] using hop
    | isr => exact .inl hrest.exists_isrStep
    | device d =>
      obtain hnext | ⟨v, rfl, hfull, href⟩ := hrest.deviceStep_answers d
      · exact .inl hnext
      · exact .inr (.inr ⟨v, rfl, hfull, href⟩)
    | platformReset => exact .inl ⟨_, rfl⟩

/-- Settles O55: from a state that meets the invariant a step answers a next state or is refused. -/
theorem noStepLeavesTheStorage : Obligations.NoStepLeavesTheStorage := by
  intro s f hi h
  obtain ⟨t, ht⟩ | ⟨addr, n, _, _, _, ⟨href, _⟩ | ⟨href, _⟩⟩ | ⟨v, _, _, href⟩ :=
    onlyOutsideTheModelIsRefused s hi
  · cases h.symm.trans ht
  all_goals cases h.symm.trans href

end Sys2Proof.Machine

/-! ## Proofs of the encoding statements (30_encoding)

The decoder against the encoder and against the opcode map, what an illegal word does, that every word
written to CMD completes, `rb.send` against `rb.sendp`, and the text of a word. -/

namespace Sys2Proof

/-! ### The decoder against the encoder -/

@[simp] theorem instrOf_fields (i : Instr) : instrOf i.fields = some i := by
  cases i <;> simp [instrOf, Instr.fields]

/-- Legal fields decode to the command they stand for (R74). -/
theorem decodeFields_of_wellFormed {f : Fields} {i : Instr} (hf : f.wellFormed = true)
    (hi : instrOf f = some i) : decodeFields f = .ok i := by
  simp only [Fields.wellFormed, Bool.and_eq_true] at hf
  obtain ⟨⟨⟨_, hrsv⟩, hslot⟩, hdata⟩ := hf
  simp [decodeFields, hrsv, hi, hslot, hdata]

theorem decode_encode (i : Instr) : decode (encode i) = .ok i := by
  rw [decode, encode, fieldsOf_wordOfFields]
  exact decodeFields_of_wellFormed i.wellFormed_eq_true (instrOf_fields i)

/-- Decoding from bytes decodes the word that the first four make (20_memory R54). -/
theorem decodeBytes_of_decode {w : Word} {i : Instr} (h : decode w = .ok i) (rest : List Byte) :
    decodeBytes (bytesOfWord w ++ rest) = .ok (i, rest) := by
  simp [bytesOfWord, decodeBytes, wordOfBytes_bytesOfWord, h]

/-- Settles O2: a command's fields are legal and stand for it, and its bytes make its word. -/
theorem decodeOfEncodeIsTheCommand : Obligations.DecodeOfEncodeIsTheCommand :=
  fun i rest => ⟨decode_encode i, decodeBytes_of_decode (decode_encode i) rest⟩

/-- Settles O3: the fields of the word are those of the command, and determine the word. -/
theorem encodeOfDecodeIsTheWord : Obligations.EncodeOfDecodeIsTheWord :=
  fun _ _ => encode_of_decode

/-- A word, as a number, is the sum of its fields at their places (R71). -/
theorem toNat_eq_sum_fieldsOf (w : Word) :
    w.toNat = (fieldsOf w).op.toNat * 2 ^ 28 + (fieldsOf w).rsv.toNat * 2 ^ 25 +
      (fieldsOf w).b.toNat * 2 ^ 24 + (fieldsOf w).slot.toNat * 2 ^ 8 + (fieldsOf w).data.toNat := by
  have hw := w.isLt
  simp only [fieldsOf, BitVec.extractLsb'_toNat, Nat.shiftRight_eq_div_pow]
  omega

theorem toNat_encode (i : Instr) :
    (encode i).toNat = i.fields.op.toNat * 2 ^ 28 + i.fields.rsv.toNat * 2 ^ 25 +
      i.fields.b.toNat * 2 ^ 24 + i.fields.slot.toNat * 2 ^ 8 + i.fields.data.toNat := by
  rw [toNat_eq_sum_fieldsOf, encode, fieldsOf_wordOfFields]

/-- Settles O1: each word is the sum of its command's fields; the example words are closed. -/
theorem encodeIsEncOfTheOperands : Obligations.EncodeIsEncOfTheOperands := by
  refine ⟨fun b => ?_, fun b i v => ?_, fun b v => ?_, fun b => ?_, fun src => ?_, by decide,
    fieldsOf_wordOfFields, wordOfFields_fieldsOf⟩ <;>
  simp [toNat_encode, Instr.fields]

/-- Settles O6: each word is closed, and the decoder evaluates on it. -/
theorem wordsOfTheTestVectorsDecode : Obligations.WordsOfTheTestVectorsDecode := by
  unfold Obligations.WordsOfTheTestVectorsDecode
  decide

/-! ### The decoder against the opcode map -/

theorem wellFormed_of_decode {w : Word} {i : Instr} (h : decode w = .ok i) :
    (fieldsOf w).wellFormed = true := by
  rw [← fields_of_decodeFields h]
  exact i.wellFormed_eq_true

/-- The words the decoder takes are those with legal fields (R74). -/
theorem exists_decode_ok_iff (w : Word) : (∃ i, decode w = .ok i) ↔ (fieldsOf w).wellFormed = true := by
  refine ⟨fun ⟨_, hi⟩ => wellFormed_of_decode hi, fun hf => ?_⟩
  cases hd : decode w with
  | error e => cases hf.symm.trans (wellFormed_of_decodeFields_error hd)
  | ok i => exact ⟨i, rfl⟩

theorem exists_decode_error_iff (w : Word) :
    (∃ e, decode w = .error e) ↔ (fieldsOf w).wellFormed = false := by
  rw [← Bool.not_eq_true, ← exists_decode_ok_iff]
  cases decode w <;> simp

theorem exists_selects_iff (w : Word) :
    (∃ r ∈ opcodeMap, r.selects w = true) ↔ (fieldsOf w).wellFormed = true := by
  rw [← List.any_eq_true, List.any_eq_not_all_not, all_not_selects_eq_not_wellFormed, Bool.not_not]

theorem all_selects_false_iff (w : Word) :
    (∀ r ∈ opcodeMap, r.selects w = false) ↔ (fieldsOf w).wellFormed = false := by
  rw [← Bool.not_eq_true, ← exists_selects_iff]
  simp

/-- Every mask keeps OP, so a row selects only words of its own OP (R73). -/
theorem op_eq_of_selects {r : Row} {w : Word} (hr : r ∈ opcodeMap) (h : r.selects w = true) :
    (fieldsOf w).op = (fieldsOf r.pattern).op := by
  have hmask : ∀ r ∈ opcodeMap, (fieldsOf r.mask).op = BitVec.allOnes 4 := by decide
  have hw : w &&& r.mask = r.pattern := by simpa [Row.selects] using h
  calc (fieldsOf w).op = (fieldsOf w).op &&& (fieldsOf r.mask).op := by rw [hmask r hr, BitVec.and_allOnes]
    _ = (fieldsOf (w &&& r.mask)).op := BitVec.extractLsb'_and.symm
    _ = (fieldsOf r.pattern).op := by rw [hw]

theorem eq_of_op_pattern_eq : ∀ r ∈ opcodeMap, ∀ q ∈ opcodeMap,
    (fieldsOf r.pattern).op = (fieldsOf q.pattern).op → r = q := by
  decide

/-- No word selects two rows, since no two rows have the same OP. -/
theorem eq_of_selects {r q : Row} {w : Word} (hr : r ∈ opcodeMap) (hq : q ∈ opcodeMap)
    (hrw : r.selects w = true) (hqw : q.selects w = true) : r = q :=
  eq_of_op_pattern_eq r hr q hq ((op_eq_of_selects hr hrw).symm.trans (op_eq_of_selects hq hqw))

theorem Instr.selects_row (i : Instr) : Laws.Row.Statement i := by
  cases i with
  | resv b => exact Laws.Row.resv b
  | stor b slot data => exact Laws.Row.stor b slot data
  | push b data => exact Laws.Row.push b data
  | read b => exact Laws.Row.read b
  | arm src => exact Laws.Row.arm src

/-- The row a legal word selects is its command's own. -/
theorem mnemonic_of_selects {w : Word} {i : Instr} {r : Row} (hi : decode w = .ok i)
    (hr : r ∈ opcodeMap) (h : r.selects w = true) : r.mnemonic = i.mnemonic := by
  obtain ⟨_, q, hq, hm, hqw⟩ := i.selects_row
  rw [encode_of_decode hi] at hqw
  rw [eq_of_selects hr hq h hqw, hm]

/-- Settles O4: both sides of the equivalence say that the fields are legal, and two rows differ in OP. -/
theorem decoderFollowsTheOpcodeMap : Obligations.DecoderFollowsTheOpcodeMap := by
  refine fun w => ⟨(exists_decode_ok_iff w).trans (exists_selects_iff w).symm,
    fun _ _ => mnemonic_of_selects, ?_⟩
  have hnodup : opcodeMap.Nodup := by decide
  exact hnodup.imp_of_mem fun hr hq hne ⟨hrw, hqw⟩ => hne (eq_of_selects hr hq hrw hqw)

/-! ### Illegal words -/

theorem Fields.opKnown_eq_false (f : Fields) : f.opKnown = false ↔ f.op = 0x0#4 ∨ 0x6#4 ≤ f.op := by
  unfold Fields.opKnown
  generalize f.op = op
  revert op
  decide

theorem Fields.opKnown_eq_true (f : Fields) :
    f.opKnown = true ↔ f.op ∈ [0x1#4, 0x2#4, 0x3#4, 0x4#4, 0x5#4] := by
  unfold Fields.opKnown
  generalize f.op = op
  revert op
  decide

/-- The ways fields can be illegal (R74). -/
theorem Fields.wellFormed_eq_false (f : Fields) :
    f.wellFormed = false ↔ f.op = 0x0#4 ∨ 0x6#4 ≤ f.op ∨ f.rsv ≠ 0#3 ∨
      (f.slot ≠ 0#16 ∧ f.op ∈ [0x1#4, 0x3#4, 0x4#4, 0x5#4]) ∨
      (f.data ≠ 0#8 ∧ f.op ∈ [0x1#4, 0x4#4, 0x5#4]) := by
  rw [← or_assoc, ← f.opKnown_eq_false]
  cases hop : f.opKnown with
  | false => simp [Fields.wellFormed, hop]
  | true =>
    have hmem := f.opKnown_eq_true.mp hop
    simp only [List.mem_cons, List.not_mem_nil, or_false] at hmem
    obtain h | h | h | h | h := hmem <;>
      simp [Fields.wellFormed, hop, Fields.rsvZero, Fields.slotZero, Fields.dataZero, h] <;> tauto

end Sys2Proof

namespace Sys2Proof.Machine

/-- Settles O5: both descriptions of the illegal words say that the fields are not legal. -/
theorem illegalWordsFaultIllegal : Obligations.IllegalWordsFaultIllegal := by
  refine ⟨fun w => (exists_decode_error_iff w).trans (all_selects_false_iff w).symm,
    fun w => (exists_decode_error_iff w).trans (fieldsOf w).wellFormed_eq_false, fun w s ⟨e, he⟩ => ?_,
    _, rfl⟩
  have hword : faultWord .eIllegal = 0x80000001#32 := by decide
  rw [execute_of_decode_error he, raiseFault_eq, hword]
  rfl

/-! ### Every word completes -/

theorem exists_push_of_ringWf {s : State} {b : Buf} (h : ringWf s b) (v : Byte) :
    ∃ t, push b v s = .ok t := by
  obtain ⟨_, hwc, _⟩ := h
  exact ⟨_, push_ok hwc⟩

theorem exists_readByte_of_ringWf {s : State} {b : Buf} (h : ringWf s b) :
    ∃ y x t, readByte b s = .ok (y, x, t) := by
  obtain ⟨hrc, _⟩ := h
  cases he : (s.ring b).isEmpty with
  | true => exact ⟨_, _, _, readByte_empty hrc he⟩
  | false => exact ⟨_, _, _, readByte_data hrc he⟩

/-- RB.STOR checks its slot against END itself, so it answers in every state (R97). -/
theorem exists_execStor (b : Buf) (slot : BitVec 16) (v : Byte) (s : State) :
    ∃ t, execStor b slot v s = .next t := by
  cases b with
  | rx => exact ⟨_, rfl⟩
  | tx =>
    by_cases hs : s.params.last < slotIndex slot
    · exact ⟨_, if_pos hs⟩
    · have hstore := memWrite_ok (b := .tx) (v := v) (Nat.not_lt.mp hs)
      simp [execStor, hs, store, hstore]

/-- Every command answers when the rings are in range, whatever else the state holds. -/
theorem exists_exec_of_ringWf {s : State} (h : ∀ b, ringWf s b) (i : Instr) : ∃ t, exec i s = .next t := by
  cases i with
  | resv b => cases b <;> exact ⟨_, rfl⟩
  | stor b slot v => exact exists_execStor b slot v s
  | push b v =>
    cases b with
    | rx => exact ⟨_, rfl⟩
    | tx => exact exists_finish _ (exists_push_of_ringWf (h .tx) v)
  | read b =>
    cases b with
    | rx =>
      obtain ⟨y, x, t, ht⟩ := exists_readByte_of_ringWf (h .rx)
      simp [exec, execRead, ht]
    | tx => exact ⟨_, rfl⟩
  | arm src => exact ⟨_, rfl⟩

/-- A command word that raises no fault leaves FAULT and FCMD alone (60_exceptions R132). -/
theorem CommandMove.faultSame {w : Word} {s t : State} (h : CommandMove w s t)
    (hw : commandFault s.params w = none) : faultSame s t := by
  cases h with
  | fault c hc _ => cases hw.symm.trans hc
  | ring u r hu _ ht => exact ht ▸ hu.only.fault
  | arm src ht =>
    subst ht
    cases src <;> exact ⟨rfl, rfl⟩

theorem exists_execute_of_ringWf {s : State} (h : ∀ b, ringWf s b) (w : Word) :
    ∃ t, execute w s = .next t := by
  cases hd : decode w with
  | error e => exact ⟨_, execute_of_decode_error hd s⟩
  | ok i => exact execute_of_decode_ok hd s ▸ exists_exec_of_ringWf h i

/-- Settles O9: an illegal word records its fault, a command answers; only a fault writes FAULT. -/
theorem everyCommandWordCompletes : Obligations.EveryCommandWordCompletes := by
  intro w s h
  obtain ⟨t, ht⟩ := exists_execute_of_ringWf h w
  exact ⟨t, ht, (execute_commandMove ht).faultSame⟩

/-! ### `rb.send` against `rb.sendp` -/

/-- The task's step in IDLE on a command of its program. -/
theorem agentStep_task_cmd {s : State} {i : Instr} {ops : List TaskOp} (hph : s.ph = .idle)
    (hprog : s.prog = .cmd (encode i) :: ops) : agentStep .task s = exec i { s with prog := ops } :=
  (taskStep_of_prog_cons hph hprog).trans (execute_of_decode_ok (decode_encode i) _)

/-- The task's step in IDLE on the second word of `rb.send`. -/
theorem agentStep_task_storAtResp {s : State} {v : Byte} {ops : List TaskOp} (hph : s.ph = .idle)
    (hprog : s.prog = .storAtResp v :: ops) :
    agentStep .task s = exec (.stor .tx (respSlot s.resp) v) { s with prog := ops } :=
  (taskStep_of_prog_cons hph hprog).trans (execute_of_decode_ok (decode_encode _) _)

/-- A store at the slot RESP holds is a store at the slot RB.RESV answered with (10_state R36). -/
theorem exec_stor_respSlot {s : State} {i : Nat} (v : Byte) (hi : i ≤ s.params.last)
    (hlast : s.params.last < 65536) :
    exec (.stor .tx (respSlot (respOfSlot i)) v) s = .next ((s.writeSlot .tx i v).setResp 0#32) := by
  have hslot : slotIndex (respSlot (respOfSlot i)) = i := by
    rw [respSlot_respOfSlot, slotIndex, BitVec.toNat_ofNat]
    omega
  simp [exec, execStor, store, hslot, Nat.not_lt.mpr hi, memWrite_ok hi]

theorem exec_push_tx {s : State} (v : Byte) (h : s.tx.wc ≤ s.params.last) :
    exec (.push .tx v) s = .next (((reserve .tx s).2.writeSlot .tx s.tx.wc v).setResp 0#32) :=
  congrArg (finish fun t => t.setResp 0#32) (push_ok (b := .tx) h)

theorem runMoves_singleton (a : Agent) (s : State) : runMoves [a] s = agentStep a s := by
  simp only [runMoves]
  cases agentStep a s <;> rfl

/-- Settles O47: `rb.send` stores to the slot RB.RESV answered with, the one Push reserves. -/
theorem sendUninterruptedEqualsPush : Obligations.SendUninterruptedEqualsPush := by
  intro s v ops hi hph
  obtain ⟨_, hcap, _⟩ := hi.params
  have hwc : s.tx.wc ≤ s.params.last := hi.wc_le_last .tx
  have hlast : s.params.last < 65536 := by
    rw [Params.last_eq]
    omega
  have hresv : agentStep .task { s with prog := rbSend v ++ ops } =
      .next ((reserve .tx { s with prog := .storAtResp v :: ops }).2.setResp (respOfSlot s.tx.wc)) :=
    agentStep_task_cmd (i := .resv .tx) hph rfl
  calc runMoves [.task, .task] { s with prog := rbSend v ++ ops }
      = agentStep .task
          ((reserve .tx { s with prog := .storAtResp v :: ops }).2.setResp (respOfSlot s.tx.wc)) := by
        rw [runMoves_cons hresv, runMoves_singleton]
    _ = exec (.stor .tx (respSlot (respOfSlot s.tx.wc)) v)
          ((reserve .tx { s with prog := ops }).2.setResp (respOfSlot s.tx.wc)) :=
        agentStep_task_storAtResp hph rfl
    _ = .next (((reserve .tx { s with prog := ops }).2.writeSlot .tx s.tx.wc v).setResp 0#32) :=
        exec_stor_respSlot v hwc hlast
    _ = exec (.push .tx v) { s with prog := ops } := (exec_push_tx (s := { s with prog := ops }) v hwc).symm
    _ = agentStep .task { s with prog := rbSendp v ++ ops } :=
        (agentStep_task_cmd (s := { s with prog := rbSendp v ++ ops }) hph rfl).symm
    _ = runMoves [.task] { s with prog := rbSendp v ++ ops } := (runMoves_singleton _ _).symm

/-! ### The text of a word: digits -/

/-- `cs` spells `n` in base `base`, the most significant digit first, one digit at least. -/
inductive DigitsOf (base : Nat) : List Char → Nat → Prop
  | digit {d : Nat} (hd : d < base) : DigitsOf base [d.digitChar] d
  | snoc {cs : List Char} {n d : Nat} (hcs : DigitsOf base cs n) (hd : d < base) :
      DigitsOf base (cs ++ [d.digitChar]) (n * base + d)

theorem DigitsOf.exists_digit {base n : Nat} {cs : List Char} (h : DigitsOf base cs n) :
    ∀ c ∈ cs, ∃ d < base, c = d.digitChar := by
  induction h with
  | digit hd => simpa using ⟨_, hd, rfl⟩
  | snoc _ hd ih =>
    intro c hc
    obtain hc | hc := List.mem_append.mp hc
    · exact ih c hc
    · exact ⟨_, hd, List.mem_singleton.mp hc⟩

theorem DigitsOf.ne_nil {base n : Nat} {cs : List Char} (h : DigitsOf base cs n) : cs ≠ [] := by
  cases h <;> simp

theorem digitValue_digitChar : ∀ base ≤ 16, ∀ d < base, digitValue base d.digitChar = some d := by
  decide

theorem digitsValue_snoc {base n d : Nat} {cs : List Char} {c : Char} (hcs : digitsValue base cs = some n)
    (hc : digitValue base c = some d) : digitsValue base (cs ++ [c]) = some (n * base + d) := by
  unfold digitsValue at hcs ⊢
  split at hcs
  next => cases hcs
  next => simp [hcs, hc]

/-- The assembler reads back the number that digits spell. -/
theorem DigitsOf.digitsValue {base n : Nat} {cs : List Char} (h : DigitsOf base cs n) (hb : base ≤ 16) :
    digitsValue base cs = some n := by
  induction h with
  | digit hd => simp [Machine.digitsValue, digitValue_digitChar base hb _ hd]
  | snoc _ hd ih => exact digitsValue_snoc ih (digitValue_digitChar base hb _ hd)

theorem digitsOf_toDigits_ten (n : Nat) : DigitsOf 10 (Nat.toDigits 10 n) n := by
  induction n using Nat.strongRecOn with
  | ind n ih =>
    rw [Nat.toDigits_eq_if (by decide)]
    split
    next h => exact .digit h
    next h =>
      have hn := DigitsOf.snoc (ih (n / 10) (by omega)) (Nat.mod_lt n (by decide : 10 > 0))
      rwa [Nat.div_add_mod'] at hn

theorem toList_hexText_succ (k n : Nat) :
    (hexText (k + 1) n).toList = (hexText k (n / 16)).toList ++ [(n % 16).digitChar] := by
  simp [hexText, List.range_succ_eq_map, Nat.pow_succ', Nat.div_div_eq_div_mul]

theorem digitsOf_hexText (k n : Nat) : DigitsOf 16 (hexText (k + 1) n).toList (n % 16 ^ (k + 1)) := by
  induction k generalizing n with
  | zero => simpa [hexText] using DigitsOf.digit (Nat.mod_lt n (by decide : 16 > 0))
  | succ k ih =>
    have h := DigitsOf.snoc (ih (n / 16)) (Nat.mod_lt n (by decide : 16 > 0))
    rw [← toList_hexText_succ] at h
    have hmod : n / 16 % 16 ^ (k + 1) * 16 + n % 16 = n % 16 ^ (k + 1 + 1) := by
      rw [Nat.pow_succ' (n := k + 1), Nat.mod_mul]
      omega
    rwa [hmod] at h

/-! ### The text of a word: words of a line -/

/-- The characters that make up a word of a line: no blank, comma, quote or comment. -/
def wordChar (c : Char) : Bool :=
  c ≠ ';' && c ≠ ',' && c ≠ quoteChar && !c.isWhitespace

/-- `cs` is read as one word. -/
abbrev IsWord (cs : List Char) : Prop :=
  cs ≠ [] ∧ cs.all wordChar = true

theorem IsWord.all_wordChar {cs : List Char} (h : IsWord cs) : cs.all wordChar = true := h.2

theorem wordChar_digitChar : ∀ d < 16, wordChar d.digitChar = true := by
  decide

theorem DigitsOf.isWord {base n : Nat} {cs : List Char} (h : DigitsOf base cs n) (hb : base ≤ 16) :
    IsWord cs := by
  refine ⟨h.ne_nil, List.all_eq_true.mpr fun c hc => ?_⟩
  obtain ⟨d, hd, rfl⟩ := h.exists_digit c hc
  exact wordChar_digitChar d (by omega)

/-- The lexer between two tokens, or in a word, of a line without quotes or comment. -/
def lexing (toks : List Token) (cur : List Char) : LexState :=
  ⟨toks, cur, none, false, true⟩

theorem lexChar_wordChar {c : Char} (hc : wordChar c = true) (toks : List Token) (cur : List Char) :
    lexChar (lexing toks cur) c = lexing toks (c :: cur) := by
  simp only [wordChar, ne_eq, decide_not, Bool.and_eq_true, Bool.not_eq_eq_eq_not, Bool.not_true,
    decide_eq_false_iff_not] at hc
  obtain ⟨⟨⟨hsemicolon, hcomma⟩, hquote⟩, hblank⟩ := hc
  simp [lexChar, lexing, hsemicolon, hcomma, hquote, hblank]

/-- A blank ends the word being read. -/
theorem lexChar_blank (toks : List Token) (cur : List Char) :
    lexChar (lexing toks cur) ' ' = (lexing toks cur).flush := rfl

/-- A comma ends the word being read, and is a token. -/
theorem lexChar_comma (toks : List Token) (cur : List Char) :
    lexChar (lexing toks cur) ',' =
      { (lexing toks cur).flush with toks := .comma :: (lexing toks cur).flush.toks } := rfl

theorem foldl_lexChar_word {cs : List Char} (h : cs.all wordChar = true) (toks : List Token)
    (cur : List Char) : cs.foldl lexChar (lexing toks cur) = lexing toks (cs.reverse ++ cur) := by
  induction cs generalizing cur with
  | nil => rfl
  | cons c cs ih =>
    rw [List.all_cons, Bool.and_eq_true] at h
    obtain ⟨hc, hcs⟩ := h
    rw [List.foldl_cons, lexChar_wordChar hc, ih hcs]
    simp

/-- The tokens of what is left of a line, after the tokens `toks`, the latest first. -/
def lexRest (toks : List Token) (cs : List Char) : Option (List Token) :=
  let l := (cs.foldl lexChar (lexing toks [])).flush
  if l.good && l.quote.isNone then some l.toks.reverse else none

theorem lexLine_eq_lexRest (cs : List Char) : lexLine cs = lexRest [] cs := rfl

section
variable {cs : List Char} (h : IsWord cs) (toks : List Token)
include h

theorem flush_lexing_word : (lexing toks (cs.reverse ++ [])).flush = lexing (.word cs :: toks) [] := by
  obtain ⟨hne, _⟩ := h
  simp [LexState.flush, lexing, hne]

/-- A word at the end of the line. -/
theorem lexRest_word : lexRest toks cs = some (toks.reverse ++ [.word cs]) := by
  rw [lexRest, foldl_lexChar_word h.all_wordChar, flush_lexing_word h]
  simp [lexing]

/-- A word before a blank. -/
theorem lexRest_word_blank (rest : List Char) :
    lexRest toks (cs ++ ' ' :: rest) = lexRest (.word cs :: toks) rest := by
  rw [lexRest, List.foldl_append, foldl_lexChar_word h.all_wordChar, List.foldl_cons, lexChar_blank,
    flush_lexing_word h]
  rfl

/-- A word before a comma and a blank. -/
theorem lexRest_word_comma (rest : List Char) :
    lexRest toks (cs ++ ',' :: ' ' :: rest) = lexRest (.comma :: .word cs :: toks) rest := by
  rw [lexRest, List.foldl_append, foldl_lexChar_word h.all_wordChar, List.foldl_cons, lexChar_comma,
    flush_lexing_word h]
  rfl
end

/-! ### The text of a word: operands -/

theorem numberOf_of_decimal {n : Nat} {cs : List Char} (h : DigitsOf 10 cs n) : numberOf cs = some n := by
  unfold numberOf
  split
  next rest =>
    obtain ⟨d, hd, hx⟩ := h.exists_digit 'x' (by simp)
    exact absurd hx.symm (Nat.digitChar_ne 'x' (by decide))
  next => exact h.digitsValue (by decide)

/-- A number as the disassembler writes it in hexadecimal, with a digit more than `k`. -/
def hexWord (k n : Nat) : List Char :=
  '0' :: 'x' :: (hexText (k + 1) n).toList

theorem isWord_hexWord (k n : Nat) : IsWord (hexWord k n) := by
  have hdigits := ((digitsOf_hexText k n).isWord (by decide)).all_wordChar
  refine ⟨nofun, ?_⟩
  simp only [hexWord, List.all_cons, hdigits]
  decide

theorem boundedOf_hexWord {k n : Nat} (h : n < 16 ^ (k + 1)) :
    boundedOf (16 ^ (k + 1)) (hexWord k n) = some n := by
  have hn : numberOf (hexWord k n) = some n := by
    have hd := (digitsOf_hexText k n).digitsValue (by decide)
    rwa [Nat.mod_eq_of_lt h] at hd
  simp [boundedOf, hn, h]

theorem byteOf_hexWord (v : Byte) : byteOf (.word (hexWord 1 v.toNat)) = some v := by
  have hv : boundedOf 256 (hexWord 1 v.toNat) = some v.toNat := boundedOf_hexWord v.isLt
  simp [byteOf, hv]

theorem boundedOf_toDigits {n : Nat} {bound : Nat} (h : n < bound) :
    boundedOf bound (Nat.toDigits 10 n) = some n := by
  simp [boundedOf, numberOf_of_decimal (digitsOf_toDigits_ten n), h]

@[simp] theorem bufNamed_bufText (b : Buf) : bufNamed (bufText b).toList = some b := by
  cases b <;> decide

theorem isWord_bufText (b : Buf) : IsWord (bufText b).toList := by
  cases b <;> decide

/-! ### The text of a word: lines -/

theorem assembleLine_of_lexLine {line : String} {toks : List Token} (h : lexLine line.toList = some toks) :
    assembleLine line = assembleTokens toks := by
  simp [assembleLine, h]

theorem assembleTokens_bufferAndByte {m a : List Char} {t : Token} {b : Buf} {v : Byte}
    {ops : List TaskOp} (ha : bufNamed a = some b) (ht : byteOf t = some v)
    (hm : bufferAndByte m b v = some ops) : assembleTokens [.word m, .word a, .comma, t] = some ops := by
  simp [assembleTokens, ha, ht, hm]

theorem assembleTokens_storLine {m a i : List Char} {t : Token} {b : Buf} {n : Nat} {v : Byte}
    {ops : List TaskOp} (ha : bufNamed a = some b) (hi : boundedOf 65536 i = some n)
    (ht : byteOf t = some v) (hm : storLine m b n v = some ops) :
    assembleTokens [.word m, .word a, .comma, .word i, .comma, t] = some ops := by
  simp [assembleTokens, ha, hi, ht, hm]

theorem assembleTokens_wordLine {m a : List Char} {ops : List TaskOp} (ha : bufNamed a = none)
    (hm : wordLine m a = some ops) : assembleTokens [.word m, .word a] = some ops := by
  simp [assembleTokens, ha, hm]

theorem assembleLine_push (b : Buf) (v : Byte) :
    assembleLine (instrText (.push b v)) = some [.cmd (encode (.push b v))] := by
  have hline : (instrText (.push b v)).toList =
      "rb.push".toList ++ ' ' :: ((bufText b).toList ++ ',' :: ' ' :: hexWord 1 v.toNat) := by
    simp [instrText, hexWord]
  have hlex : lexLine (instrText (.push b v)).toList =
      some [.word "rb.push".toList, .word (bufText b).toList, .comma, .word (hexWord 1 v.toNat)] := by
    rw [hline, lexLine_eq_lexRest, lexRest_word_blank (by decide), lexRest_word_comma (isWord_bufText b),
      lexRest_word (isWord_hexWord 1 _)]
    rfl
  rw [assembleLine_of_lexLine hlex]
  exact assembleTokens_bufferAndByte (bufNamed_bufText b) (byteOf_hexWord v) (if_pos rfl)

theorem assembleLine_stor (b : Buf) (slot : BitVec 16) (v : Byte) :
    assembleLine (instrText (.stor b slot v)) = some [.cmd (encode (.stor b slot v))] := by
  have hline : (instrText (.stor b slot v)).toList =
      "rb.stor".toList ++ ' ' :: ((bufText b).toList ++ ',' :: ' ' ::
        (Nat.toDigits 10 slot.toNat ++ ',' :: ' ' :: hexWord 1 v.toNat)) := by
    simp [instrText, hexWord]
  have hlex : lexLine (instrText (.stor b slot v)).toList =
      some [.word "rb.stor".toList, .word (bufText b).toList, .comma,
        .word (Nat.toDigits 10 slot.toNat), .comma, .word (hexWord 1 v.toNat)] := by
    rw [hline, lexLine_eq_lexRest, lexRest_word_blank (by decide), lexRest_word_comma (isWord_bufText b),
      lexRest_word_comma ((digitsOf_toDigits_ten _).isWord (by decide)), lexRest_word (isWord_hexWord 1 _)]
    rfl
  rw [assembleLine_of_lexLine hlex]
  refine assembleTokens_storLine (bufNamed_bufText b) (boundedOf_toDigits slot.isLt) (byteOf_hexWord v)
    ((if_pos rfl).trans ?_)
  simp

/-- The line of an illegal word assembles to the number it writes out (R78, R80). -/
theorem assembleLine_dotWord (w : Word) : assembleLine (".word 0x" ++ hexText 8 w.toNat) = some [.cmd w] := by
  have hline : (".word 0x" ++ hexText 8 w.toNat).toList = ".word".toList ++ ' ' :: hexWord 7 w.toNat := by
    simp [hexWord]
  have hlex : lexLine (".word 0x" ++ hexText 8 w.toNat).toList =
      some [.word ".word".toList, .word (hexWord 7 w.toNat)] := by
    rw [hline, lexLine_eq_lexRest, lexRest_word_blank (by decide), lexRest_word (isWord_hexWord 7 _)]
    rfl
  have hvalue : boundedOf (2 ^ 32) (hexWord 7 w.toNat) = some w.toNat := boundedOf_hexWord w.isLt
  have hword : wordLine ".word".toList (hexWord 7 w.toNat) = some [.cmd w] := by
    rw [wordLine, if_pos rfl, hvalue]
    simp
  rw [assembleLine_of_lexLine hlex]
  exact assembleTokens_wordLine (by simp [bufNamed, hexWord]) hword

theorem assembleLine_instrText (i : Instr) : assembleLine (instrText i) = some [.cmd (encode i)] := by
  cases i with
  | resv b | read b | arm b => cases b <;> decide
  | stor b slot v => exact assembleLine_stor b slot v
  | push b v => exact assembleLine_push b v

/-- Settles O7: a legal word prints as its command, which assembles to the command's word; another prints
as its number. -/
theorem disassemblyAssemblesBack : Obligations.DisassemblyAssemblesBack := by
  refine ⟨fun w => ?_, by decide⟩
  unfold disassemble
  cases hd : decode w with
  | ok i => rw [assembleLine_instrText, encode_of_decode hd]
  | error e => exact assembleLine_dotWord w

end Sys2Proof.Machine

/-! ## Proofs of the ring-buffer statements (40_ring_buffer)

The task's commands on a ring, how Reserve and Read change Visible, what Push and Read do to the list of the
visible bytes, and from these what lists of Pushes and Reads do. -/

namespace Sys2Proof.Machine

/-! ### The commands -/

theorem exec_resv_tx (s : State) :
    exec (.resv .tx) s = .next ((reserve .tx s).2.setResp (respOfSlot s.tx.wc)) := rfl

theorem exec_stor_tx {s : State} {slot : BitVec 16} (v : Byte) (h : slotIndex slot ≤ s.params.last) :
    exec (.stor .tx slot v) s = .next ((s.writeSlot .tx (slotIndex slot) v).setResp 0#32) := by
  simp [exec, execStor, store, Nat.not_lt.mpr h, memWrite_ok h]

theorem exec_read_rx {s u : State} {y : Bool} {x : Byte} (h : readByte .rx s = .ok (y, x, u)) :
    exec (.read .rx) s = .next (u.setResp (respOfRead y x)) := by
  simp [exec, execRead, h]

/-- Settles O12: the command is Reserve, whose slot fits RESP[15:0]. -/
theorem resvReturnsSlotAndAdvances : Obligations.ResvReturnsSlotAndAdvances := by
  intro s ⟨_, hcap, _⟩ hwc
  rw [exec_resv_tx, respOfSlot_eq (by omega), reserve_snd, State.ring_tx, Ring.wcAfterReserve_eq]
  rfl

/-- Settles O13: with SLOT at most END the command is the store and its answer. -/
theorem storWritesTheSlot : Obligations.StorWritesTheSlot := by
  intro s slot v h
  exact ⟨_, exec_stor_tx v h, rfl, by simp [slotIndex], by simp⟩

/-- Settles O14: the command is Push, which stores to the slot Reserve returned. -/
theorem pushStoresAndAdvances : Obligations.PushStoresAndAdvances := by
  intro s v hwc
  exact ⟨_, exec_push_tx v hwc, rfl, by simp, by simp [reserve_snd],
    by simp [reserve_snd, Ring.wcAfterReserve_eq]⟩

/-- Settles O15: the command is Read, and RESP holds has-data over the byte read. -/
theorem readTakesTheOldestByte : Obligations.ReadTakesTheOldestByte := by
  intro s hrc
  refine ⟨fun hdata => ?_, fun hempty => ?_⟩
  · have hread := readByte_data (b := .rx) (s := s) hrc (by simpa [Ring.isEmpty] using hdata)
    obtain ⟨_, _, hrc', hwc', hslot, _⟩ := readByte_true hread
    exact ⟨_, exec_read_rx hread, respOfRead_eq true _, (State.slot_setResp ..).trans hslot, hwc', hrc'⟩
  · have hread := readByte_empty (b := .rx) (s := s) hrc (by simpa [Ring.isEmpty] using hempty)
    rw [exec_read_rx hread, respOfRead_eq, if_neg Bool.false_ne_true, Nat.zero_add]
    rfl

/-! ### Visible -/

theorem Ring.wcAfterReserve_of_full {p : Params} {r : Ring} (h : r.isFull p = true) :
    r.wcAfterReserve p = r.wc := by
  obtain ⟨hend, hnext⟩ := Ring.isFull_iff.mp h
  rw [Params.last_eq] at hend
  simp [Ring.wcAfterReserve_eq, hend, hnext]

/-- Reserve moves WC on in every configuration but Full (R91, R100). -/
theorem Ring.wcAfterReserve_of_not_full {p : Params} {r : Ring} (h : r.isFull p = false) :
    r.wcAfterReserve p = succ p r.wc := by
  rw [← Bool.not_eq_true, Ring.isFull_iff] at h
  unfold Ring.wcAfterReserve Ring.next
  split
  next hend => rw [hend, succ_last]
  next hend => rw [succ_of_ne hend, if_pos fun hnext => h ⟨hend, hnext⟩]

/-- Full depends on the two cursors alone. -/
theorem Ring.isFull_congr {p : Params} {r q : Ring} (hrc : r.rc = q.rc) (hwc : r.wc = q.wc) :
    r.isFull p = q.isFull p := by
  simp [Ring.isFull, Ring.atEndWrap, Ring.next, hrc, hwc]

/-- At END Reserve wraps whatever RC is, so the ring is never Full there (R101). -/
theorem Ring.isFull_of_end {p : Params} {r : Ring} (h : r.wc = p.last) : r.isFull p = false := by
  rw [← Bool.not_eq_true, Ring.isFull_iff]
  exact fun ⟨hend, _⟩ => hend h

section
variable {p : Params} {r q : Ring} (hp : 2 ≤ p.cap) (hrc : r.rc ≤ p.last) (hwc : r.wc ≤ p.last)
include hp hrc hwc

theorem Ring.visible_lt_cap : r.visible p < p.cap := by
  rw [Ring.visible_eq hrc hwc hp]
  rw [Params.last_eq] at hrc hwc
  split <;> omega

theorem Ring.visible_eq_zero_iff : r.visible p = 0 ↔ r.rc = r.wc := by
  rw [Ring.visible_eq hrc hwc hp]
  rw [Params.last_eq] at hrc hwc
  split <;> omega

/-- WC is the slot Visible places after RC (10_state R28). -/
theorem Ring.rc_add_visible_mod : (r.rc + r.visible p) % p.cap = r.wc := by
  rw [Ring.visible_eq hrc hwc hp]
  rw [Params.last_eq] at hrc hwc
  split
  · rw [Nat.add_sub_of_le ‹_›, Nat.mod_eq_of_lt (by omega)]
  · rw [Nat.add_sub_of_le (by omega), Nat.add_mod_right, Nat.mod_eq_of_lt (by omega)]

/-- There is room for one more byte unless the ring is full, or WC is at END with RC at BEGIN (R100, R101). -/
theorem Ring.visible_add_one_lt_cap_iff :
    r.visible p + 1 < p.cap ↔ r.isFull p = false ∧ ¬ (r.wc = p.last ∧ r.rc = p.first) := by
  rw [← Bool.not_eq_true, Ring.isFull_iff, Ring.visible_eq hrc hwc hp, Params.first]
  rw [Params.last_eq] at hrc hwc ⊢
  split <;> omega

theorem Ring.visible_of_end_wrap (hend : r.wc = p.last) (hbegin : r.rc = p.first) :
    r.visible p = p.cap - 1 := by
  rw [Ring.visible_eq hrc hwc hp, hend, hbegin, Params.first, if_pos (Nat.zero_le _), Nat.sub_zero,
    Params.last_eq]

/-- Moving WC on makes one more byte visible, modulo C. -/
theorem Ring.visible_of_wc_succ (hqrc : q.rc = r.rc) (hqwc : q.wc = succ p r.wc) :
    q.visible p = (r.visible p + 1) % p.cap := by
  have hqrc' : q.rc ≤ p.last := hqrc ▸ hrc
  have hqwc' : q.wc ≤ p.last := hqwc ▸ succ_le_last hwc
  have hmod : r.rc + q.visible p ≡ r.rc + (r.visible p + 1) [MOD p.cap] := calc
    (r.rc + q.visible p) % p.cap = (r.wc + 1) % p.cap := by
      rw [← hqrc, Ring.rc_add_visible_mod hp hqrc' hqwc', hqwc, succ_eq_mod hp hwc]
    _ = (r.rc + (r.visible p + 1)) % p.cap := by
      rw [← Ring.rc_add_visible_mod hp hrc hwc, Nat.mod_add_mod, Nat.add_assoc]
  rw [← Nat.ModEq.add_left_cancel' _ hmod, Nat.mod_eq_of_lt (Ring.visible_lt_cap hp hqrc' hqwc')]

/-- Moving RC on, on a ring with data, makes one byte fewer visible. -/
theorem Ring.visible_of_rc_succ (hdata : r.rc ≠ r.wc) (hqrc : q.rc = succ p r.rc) (hqwc : q.wc = r.wc) :
    r.visible p = q.visible p + 1 := by
  rw [Ring.visible_eq hrc hwc hp,
    Ring.visible_eq (hqrc ▸ succ_le_last hrc) (hqwc ▸ hwc) hp, hqrc, hqwc, succ, Params.first]
  rw [Params.last_eq] at hrc hwc ⊢
  split_ifs <;> omega

end

/-- Settles O20: Reserve moves WC on unless the ring is full, and Read moves RC on unless it is empty. -/
theorem reserveAndReadChangeVisible : Obligations.ReserveAndReadChangeVisible := by
  intro s b ⟨hp, _⟩ ⟨hrc, hwc, _⟩
  have hmove (h : (s.ring b).isFull s.params = false) :
      ((reserve b s).2.ring b).visible s.params = ((s.ring b).visible s.params + 1) % s.params.cap :=
    Ring.visible_of_wc_succ hp hrc hwc (by simp [reserve_snd])
      (by simp [reserve_snd, Ring.wcAfterReserve_of_not_full h])
  refine ⟨fun hfull => ?_, hmove, fun hfull hwrap => ?_, fun hend hbegin => ?_, fun h x t hread => ?_⟩
  · exact Ring.visible_congr (by simp [reserve_snd])
      (by simp [reserve_snd, Ring.wcAfterReserve_of_full hfull])
  · rw [hmove hfull, Nat.mod_eq_of_lt ((Ring.visible_add_one_lt_cap_iff hp hrc hwc).mpr ⟨hfull, hwrap⟩)]
  · have hvisible := Ring.visible_of_end_wrap hp hrc hwc hend hbegin
    refine ⟨hvisible, ?_⟩
    rw [hmove (Ring.isFull_of_end hend), hvisible, Nat.sub_add_cancel (by omega), Nat.mod_self]
  · cases h with
    | true =>
      obtain ⟨hdata, _, hrc', hwc', _⟩ := readByte_true hread
      have hvisible := Ring.visible_of_rc_succ hp hrc hwc hdata hrc' hwc'
      exact ⟨fun _ => by omega, nofun⟩
    | false =>
      obtain ⟨hempty, _, rfl⟩ := readByte_false hread
      have hvisible := (Ring.visible_eq_zero_iff hp hrc hwc).mpr hempty
      exact ⟨nofun, fun _ => ⟨hvisible, hvisible⟩⟩

/-! ### The visible bytes -/

theorem length_visibleBytes (b : Buf) (s : State) :
    (visibleBytes b s).length = (s.ring b).visible s.params := by
  simp [visibleBytes]

/-- Different numbers of steps below C lead from a cursor to different slots. -/
theorem add_mod_cap_inj {c i j k : Nat} (hj : j < c) (hk : k < c) (h : (i + j) % c = (i + k) % c) :
    j = k :=
  (Nat.ModEq.add_left_cancel' i h).eq_of_lt_of_lt hj hk

section
variable {b : Buf} {s : State} (hp : 2 ≤ s.params.cap) (hs : ringWf s b)
include hp hs

theorem visibleBytes_eq_nil_iff : visibleBytes b s = [] ↔ (s.ring b).isEmpty = true := by
  obtain ⟨hrc, hwc, _⟩ := hs
  rw [← List.length_eq_zero_iff, length_visibleBytes, Ring.visible_eq_zero_iff hp hrc hwc, Ring.isEmpty_iff]

/-- The slot at WC is not visible (R100). -/
theorem visible_slots_congr {t : State} (h : ∀ a, a ≠ (s.ring b).wc → t.slot b a = s.slot b a) :
    (List.range ((s.ring b).visible s.params)).map
      (fun k => t.slot b (((s.ring b).rc + k) % s.params.cap)) = visibleBytes b s := by
  obtain ⟨hrc, hwc, _⟩ := hs
  refine List.map_congr_left fun k hk => h _ fun heq => ?_
  rw [List.mem_range] at hk
  have hlt := Ring.visible_lt_cap hp hrc hwc
  rw [← Ring.rc_add_visible_mod hp hrc hwc] at heq
  exact hk.ne (add_mod_cap_inj (hk.trans hlt) hlt heq)

theorem push_wc_of_room {t : State} {v : Byte}
    (hroom : (s.ring b).visible s.params + 1 < s.params.cap) (h : push b v s = .ok t) :
    (t.ring b).wc = succ s.params (s.ring b).wc := by
  obtain ⟨hrc, hwc, _⟩ := hs
  obtain ⟨hfull, _⟩ := (Ring.visible_add_one_lt_cap_iff hp hrc hwc).mp hroom
  rw [push_wc h, Ring.wcAfterReserve_of_not_full hfull]

/-- A Push into a ring with room appends its byte to the visible ones (R94). -/
theorem visibleBytes_push {t : State} {v : Byte}
    (hroom : (s.ring b).visible s.params + 1 < s.params.cap) (h : push b v s = .ok t) :
    visibleBytes b t = visibleBytes b s ++ [v] := by
  have hslots := visible_slots_congr hp hs fun a ha => push_slot_other h (.inr ha)
  have hwct := push_wc_of_room hp hs hroom h
  obtain ⟨hrc, hwc, _⟩ := hs
  have hvisible : (t.ring b).visible s.params = (s.ring b).visible s.params + 1 := by
    rw [Ring.visible_of_wc_succ hp hrc hwc (push_rc h) hwct, Nat.mod_eq_of_lt hroom]
  rw [visibleBytes, (push_ringsOnly h).params, hvisible, push_rc h, List.range_succ, List.map_append, hslots,
    List.map_singleton, Ring.rc_add_visible_mod hp hrc hwc, push_slot h]

/-- A Read with data takes the oldest of the visible bytes (R93, R103). -/
theorem visibleBytes_readByte {t : State} {x : Byte} (h : readByte b s = .ok (true, x, t)) :
    visibleBytes b s = x :: visibleBytes b t := by
  obtain ⟨hrc, hwc, _⟩ := hs
  obtain ⟨hdata, hx, hrc', hwc', _, hslot⟩ := readByte_true h
  have hvisible := Ring.visible_of_rc_succ hp hrc hwc hdata hrc' hwc'
  have hlt := Ring.visible_lt_cap hp hrc hwc
  have hzero : ((s.ring b).rc + 0) % s.params.cap = (s.ring b).rc :=
    Nat.mod_eq_of_lt (by rw [Params.last_eq] at hrc; omega)
  rw [visibleBytes, visibleBytes, (readByte_ringsOnly h).params, hvisible, List.range_succ_eq_map,
    List.map_cons, List.map_map, hzero, hx]
  refine congrArg _ (List.map_congr_left fun k hk => ?_)
  rw [List.mem_range] at hk
  have hne : ((s.ring b).rc + (k + 1)) % s.params.cap ≠ (s.ring b).rc := fun heq =>
    Nat.succ_ne_zero k (add_mod_cap_inj (by omega) (by omega) (heq.trans hzero.symm))
  rw [hrc', succ_eq_mod hp hrc, Nat.mod_add_mod, Nat.add_assoc, Nat.add_comm 1 k, hslot _ hne]
  rfl

/-- Read answers the oldest of the visible bytes and leaves the others. -/
theorem readByte_of_visibleBytes_eq_cons {x : Byte} {l : List Byte} (h : visibleBytes b s = x :: l) :
    ∃ t, readByte b s = .ok (true, x, t) ∧ visibleBytes b t = l := by
  obtain ⟨y, x', t, hread⟩ := exists_readByte_of_ringWf hs
  cases y with
  | false =>
    obtain ⟨hempty, _⟩ := readByte_false hread
    rw [(visibleBytes_eq_nil_iff hp hs).mpr ((Ring.isEmpty_iff _).mpr hempty)] at h
    cases h
  | true =>
    rw [visibleBytes_readByte hp hs hread] at h
    obtain ⟨rfl, hl⟩ := List.cons.inj h
    exact ⟨t, hread, hl⟩

end

/-! ### What a run of Pushes and Reads keeps -/

/-- What every run of Pushes and Reads of ring `b` from `s` to `t` keeps. -/
structure RingRun (b : Buf) (s t : State) : Prop where
  params : t.params = s.params
  resetNo : t.resetNo = s.resetNo
  wf : ringWf t b

theorem RingRun.refl {b : Buf} {s : State} (hs : ringWf s b) : RingRun b s s :=
  ⟨rfl, rfl, hs⟩

theorem RingRun.trans {b : Buf} {s t u : State} (h : RingRun b s t) (g : RingRun b t u) : RingRun b s u :=
  ⟨g.params.trans h.params, g.resetNo.trans h.resetNo, g.wf⟩

theorem RingRun.two_le_cap {b : Buf} {s t : State} (h : RingRun b s t) (hp : 2 ≤ s.params.cap) :
    2 ≤ t.params.cap :=
  h.params.symm ▸ hp

theorem RingRun.push {b : Buf} {s t : State} {v : Byte} (hs : ringWf s b) (h : push b v s = .ok t) :
    RingRun b s t := by
  obtain ⟨hparams, hreset, _⟩ := (push_ringsOnly h).model
  exact ⟨hparams, hreset, push_ringWf hs hs h⟩

theorem RingRun.readByte {b : Buf} {s t : State} {y : Bool} {x : Byte} (hs : ringWf s b)
    (h : readByte b s = .ok (y, x, t)) : RingRun b s t := by
  obtain ⟨hparams, hreset, _⟩ := (readByte_ringsOnly h).model
  exact ⟨hparams, hreset, readByte_ringWf hs hs h⟩

/-- A ring in range lists no slot above END (10_state R22). -/
theorem slot_above_last {b : Buf} {s : State} {a : Nat} (hs : ringWf s b) (ha : s.params.last < a) :
    s.slot b a = s.unlisted b a := by
  obtain ⟨_, _, _, hcells⟩ := hs
  have hnone : (s.ring b).store.lookup a = none := by
    refine List.lookup_eq_none_iff.mpr fun c hc => ?_
    have hne : a ≠ c.1 := (Nat.lt_of_le_of_lt (hcells c hc) ha).ne'
    exact bne_iff_ne.mpr hne
  rw [State.slot, Memory.read, hnone, Option.getD_none]

theorem RingRun.slot_above_last {b : Buf} {s t : State} {a : Nat} (h : RingRun b s t) (hs : ringWf s b)
    (ha : s.params.last < a) : t.slot b a = s.slot b a := by
  rw [Machine.slot_above_last hs ha, Machine.slot_above_last h.wf (h.params.symm ▸ ha), State.unlisted,
    State.unlisted, h.resetNo]

/-! ### Lists of Pushes and Reads -/

theorem pushAll_cons {b : Buf} {s t : State} {v : Byte} (h : push b v s = .ok t) (rest : List Byte) :
    pushAll b (v :: rest) s = pushAll b rest t := by
  simp [pushAll, h]

theorem readMany_succ {b : Buf} {s t u : State} {y : Bool} {x : Byte} {n : Nat} {l : List (Bool × Byte)}
    (h : readByte b s = .ok (y, x, t)) (hl : readMany b n t = .ok (l, u)) :
    readMany b (n + 1) s = .ok ((y, x) :: l, u) := by
  simp [readMany, h, hl]

/-- Settles O22: each Read of an empty ring leaves the state to the next. -/
theorem emptyReadsChangeNothing : Obligations.EmptyReadsChangeNothing := by
  intro s b n ⟨hrc, _⟩ hempty
  induction n with
  | zero => rfl
  | succ n ih => exact readMany_succ (readByte_empty hrc hempty) ih

/-- Reads take all the visible bytes in order (R103). -/
theorem readMany_of_visibleBytes_eq {b : Buf} {l : List Byte} {s : State} (hp : 2 ≤ s.params.cap)
    (hs : ringWf s b) (h : visibleBytes b s = l) :
    ∃ t, readMany b l.length s = .ok (l.map (fun x => (true, x)), t) ∧ RingRun b s t ∧
      (t.ring b).isEmpty = true ∧ (t.ring b).wc = (s.ring b).wc := by
  induction l generalizing s with
  | nil => exact ⟨s, rfl, .refl hs, (visibleBytes_eq_nil_iff hp hs).mp h, rfl⟩
  | cons x l ih =>
    obtain ⟨t, hread, hl⟩ := readByte_of_visibleBytes_eq_cons hp hs h
    have hrun := RingRun.readByte hs hread
    obtain ⟨u, hmany, hrun', hempty, hwc⟩ := ih (hrun.two_le_cap hp) hrun.wf hl
    exact ⟨u, readMany_succ hread hmany, hrun.trans hrun', hempty, hwc.trans (readByte_wc hread)⟩

/-- Settles O23: Visible is the number of the visible bytes, which Reads take from the front. -/
theorem readsReturnTheVisibleSlots : Obligations.ReadsReturnTheVisibleSlots := by
  intro s b ⟨hp, _⟩ hs
  obtain ⟨t, hmany, _, hempty, hwc⟩ := readMany_of_visibleBytes_eq hp hs rfl
  exact ⟨t, length_visibleBytes b s ▸ hmany, hempty, hwc⟩

/-- Pushes for which there is room append their bytes to the visible ones (R104). -/
theorem pushAll_of_room {b : Buf} {bytes : List Byte} {s : State} (hp : 2 ≤ s.params.cap)
    (hs : ringWf s b) (hroom : (s.ring b).visible s.params + bytes.length < s.params.cap) :
    ∃ t, pushAll b bytes s = .ok t ∧ RingRun b s t ∧ visibleBytes b t = visibleBytes b s ++ bytes := by
  induction bytes generalizing s with
  | nil => exact ⟨s, rfl, .refl hs, (List.append_nil _).symm⟩
  | cons v rest ih =>
    rw [List.length_cons] at hroom
    obtain ⟨t, hpush⟩ := exists_push_of_ringWf hs v
    have hrun := RingRun.push hs hpush
    have hbytes := visibleBytes_push hp hs (by omega) hpush
    have hroom' : (t.ring b).visible t.params + rest.length < t.params.cap := by
      rw [← length_visibleBytes, hbytes, List.length_append, length_visibleBytes, hrun.params,
        List.length_singleton]
      omega
    obtain ⟨u, hall, hrun', hbytes'⟩ := ih (hrun.two_le_cap hp) hrun.wf hroom'
    exact ⟨u, (pushAll_cons hpush rest).trans hall, hrun.trans hrun', by simp [hbytes', hbytes]⟩

/-- Settles O24: the Pushes make exactly their bytes visible, and the Reads take the visible bytes. -/
theorem fifoOrderAcrossTheWrap : Obligations.FifoOrderAcrossTheWrap := by
  intro s b bytes ⟨hp, _⟩ hs hempty hlen
  have hnil := (visibleBytes_eq_nil_iff hp hs).mpr hempty
  have hzero : (s.ring b).visible s.params = 0 := by rw [← length_visibleBytes, hnil, List.length_nil]
  obtain ⟨t, hall, hrun, hbytes⟩ := pushAll_of_room (bytes := bytes) hp hs (by omega)
  rw [hnil, List.nil_append] at hbytes
  obtain ⟨u, hmany, hrun', hempty', _⟩ :=
    readMany_of_visibleBytes_eq (hrun.two_le_cap hp) hrun.wf hbytes
  exact ⟨t, u, hall, hmany, hempty', fun a ha => (hrun.trans hrun').slot_above_last hs ha⟩

/-! ### Overrun -/

/-- Pushes while the ring is full move no cursor and write the gap slot only, the last byte in place (R100,
R102 (a)). -/
theorem pushAll_of_full {b : Buf} {bytes : List Byte} {s : State} (hs : ringWf s b)
    (hfull : (s.ring b).isFull s.params = true) :
    ∃ t, pushAll b bytes s = .ok t ∧ RingRun b s t ∧ (t.ring b).rc = (s.ring b).rc ∧
      (t.ring b).wc = (s.ring b).wc ∧ (∀ a, a ≠ (s.ring b).wc → t.slot b a = s.slot b a) ∧
      t.slot b (s.ring b).wc = bytes.getLast?.getD (s.slot b (s.ring b).wc) := by
  induction bytes generalizing s with
  | nil => exact ⟨s, rfl, .refl hs, rfl, rfl, fun _ _ => rfl, rfl⟩
  | cons v rest ih =>
    obtain ⟨t, hpush⟩ := exists_push_of_ringWf hs v
    have hrun := RingRun.push hs hpush
    have hwc : (t.ring b).wc = (s.ring b).wc := (push_wc hpush).trans (Ring.wcAfterReserve_of_full hfull)
    have hfull' : (t.ring b).isFull t.params = true := by
      rwa [hrun.params, Ring.isFull_congr (push_rc hpush) hwc]
    obtain ⟨u, hall, hrun', hrc', hwc', hslot, hgap⟩ := ih hrun.wf hfull'
    rw [hwc] at hwc' hslot hgap
    refine ⟨u, (pushAll_cons hpush rest).trans hall, hrun.trans hrun', hrc'.trans (push_rc hpush), hwc',
      fun a ha => (hslot a ha).trans (push_slot_other hpush (.inr ha)), ?_⟩
    rw [hgap, push_slot hpush, List.getLast?_cons, Option.getD_some]

/-- A full ring has data: the slot after WC, not WC, is at RC (10_state R28). -/
theorem visibleBytes_ne_nil_of_full {b : Buf} {s : State} (hp : 2 ≤ s.params.cap) (hs : ringWf s b)
    (hfull : (s.ring b).isFull s.params = true) : visibleBytes b s ≠ [] := by
  rw [Ne, visibleBytes_eq_nil_iff hp hs, Ring.isEmpty_iff]
  obtain ⟨_, hnext⟩ := Ring.isFull_iff.mp hfull
  omega

/-- A Read of a full ring, and then a Push: the oldest byte leaves, and the pushed byte, stored in the gap
slot, comes last (R102 (a)). -/
theorem readByte_then_push_of_full {b : Buf} {s : State} (hp : 2 ≤ s.params.cap) (hs : ringWf s b)
    (hfull : (s.ring b).isFull s.params = true) (w : Byte) :
    ∃ x r u, readByte b s = .ok (true, x, r) ∧ visibleBytes b s = x :: visibleBytes b r ∧
      push b w r = .ok u ∧ u.slot b (s.ring b).wc = w ∧ (u.ring b).wc = succ s.params (s.ring b).wc ∧
      visibleBytes b u = visibleBytes b r ++ [w] := by
  obtain ⟨x, l, hbytes⟩ := List.exists_cons_of_ne_nil (visibleBytes_ne_nil_of_full hp hs hfull)
  obtain ⟨r, hread, rfl⟩ := readByte_of_visibleBytes_eq_cons hp hs hbytes
  have hrun := RingRun.readByte hs hread
  obtain ⟨u, hpush⟩ := exists_push_of_ringWf hrun.wf w
  have hp' : 2 ≤ r.params.cap := hrun.two_le_cap hp
  have hroom : (r.ring b).visible r.params + 1 < r.params.cap := by
    obtain ⟨hrc, hwc, _⟩ := hs
    have hlt := Ring.visible_lt_cap hp hrc hwc
    rwa [← length_visibleBytes, hbytes, List.length_cons, length_visibleBytes, ← hrun.params] at hlt
  refine ⟨x, r, u, hread, hbytes, hpush, ?_, ?_, visibleBytes_push hp' hrun.wf hroom hpush⟩
  · rw [← readByte_wc hread, push_slot hpush]
  · rw [push_wc_of_room hp' hrun.wf hroom hpush, readByte_wc hread, hrun.params]

/-- Settles O25: Pushes while full write only the gap slot, which is not visible, and after a Read there is
room for one more byte there. -/
theorem pushesWhileFullAreLost : Obligations.PushesWhileFullAreLost := by
  intro s b bytes ⟨hp, _⟩ hs hfull
  obtain ⟨t, hall, hrun, hrc, hwc, hslot, hgap⟩ := pushAll_of_full (bytes := bytes) hs hfull
  rw [← Ring.isFull_congr hrc hwc] at hfull
  have hbytes : visibleBytes b t = visibleBytes b s := by
    rw [visibleBytes, hrun.params, hrc, Ring.visible_congr hrc hwc, visible_slots_congr hp hs hslot]
  refine ⟨t, hall, hfull, hrc, hwc, hslot, fun v hv => by rw [hgap, hv, Option.getD_some],
    hbytes, fun w => ?_⟩
  have hnext := readByte_then_push_of_full (hrun.two_le_cap hp) hrun.wf (hrun.params.symm ▸ hfull) w
  rwa [hbytes, hwc, hrun.params] at hnext

/-- Settles O26: at WC = END Reserve wraps whatever RC is; the emptied ring has room for a Push, whose byte
is then the only one visible to the Read. -/
theorem endWrapEmptiesAFullRing : Obligations.EndWrapEmptiesAFullRing := by
  intro s b v w ⟨hp, _⟩ hs hend hbegin
  have hfullCount : (s.ring b).visible s.params = s.params.cap - 1 := by
    obtain ⟨hrc, hwc, _⟩ := hs
    exact Ring.visible_of_end_wrap hp hrc hwc hend hbegin
  obtain ⟨t, hpush⟩ := exists_push_of_ringWf hs v
  have hrun := RingRun.push hs hpush
  have hpt : 2 ≤ t.params.cap := hrun.two_le_cap hp
  have hwct : (t.ring b).wc = s.params.first := by
    rw [push_wc hpush, Ring.wcAfterReserve_of_not_full (Ring.isFull_of_end hend), hend, succ_last]
  have hempty : (t.ring b).isEmpty = true := by rw [Ring.isEmpty_iff, push_rc hpush, hbegin, hwct]
  have hnil := (visibleBytes_eq_nil_iff hpt hrun.wf).mpr hempty
  obtain ⟨u, hpush'⟩ := exists_push_of_ringWf hrun.wf w
  have hrun' := RingRun.push hrun.wf hpush'
  have hone : visibleBytes b u = [w] := by
    rw [visibleBytes_push hpt hrun.wf (by rw [← length_visibleBytes, hnil]; exact hpt) hpush', hnil,
      List.nil_append]
  have hpu : 2 ≤ u.params.cap := hrun'.two_le_cap hpt
  obtain ⟨x, hread, hnil'⟩ := readByte_of_visibleBytes_eq_cons hpu hrun'.wf hone
  have hrun'' := RingRun.readByte hrun'.wf hread
  refine ⟨hfullCount, t, u, x, hpush, hempty, hwct, ?_, fun a ha => ?_, hpush', ?_, hread, ?_⟩
  · rw [← hend, push_slot hpush]
  · exact push_slot_other hpush (.inr (hend.symm ▸ ha))
  · rw [← hwct, push_slot hpush']
  · exact (visibleBytes_eq_nil_iff (hrun''.two_le_cap hpu) hrun''.wf).mp hnil'

end Sys2Proof.Machine

/-! ## Proofs of the sequencer's statements (41_isr_multiplexer)

A sequencer step is exactly one of the ways `IsrMove` lists; from these the phases one by one, what the
sequencer leaves alone, the independence of its two halves, and its undisturbed runs. -/

namespace Sys2Proof.Machine

/-! ### The sequencer's steps -/

/-- Each of the sequencer's ways from `s` to `t` is its step from `s`, the converse of `isrStep_cases`. -/
theorem IsrMove.isrStep {s t : State} (h : IsrMove s t) : isrStep s = .next t := by
  cases h with
  | entry hp hi ht => simp [Machine.isrStep, hp, isrIdle, hi, ht]
  | wait hp hi ht => simp [Machine.isrStep, hp, isrIdle, hi, ht]
  | rxAck hp ht => simp [Machine.isrStep, hp, isrRxAck, devAck, State.setPh, ht]
  | rxByte v rest u hp hx hu ht =>
    rw [hp] at hu
    simp [Machine.isrStep, hp, isrRxDrain, devPopRx, hx, hu, ht]
  | rxDone hp hx ht => simp [Machine.isrStep, hp, isrRxDrain, devPopRx, hx, ht]
  | rxDelim u hp hu ht =>
    have hlat : u.latTx = s.latTx := (push_ringsOnly hu).latTx
    cases hl : s.latTx <;> simp [Machine.isrStep, hp, isrRxDelim, hu, hlat, hl, returnFromIsr, ht]
  | txAck hp ht => simp [Machine.isrStep, hp, isrTxAck, devAck, State.setPh, ht]
  | txEmpty hp ht =>
    by_cases he : s.txf = [] <;> simp [Machine.isrStep, hp, isrTxEmpty, txfe, he, returnFromIsr, ht]
  | txFull hp hl ht => simp [Machine.isrStep, hp, isrTxFill, txff, hl, returnFromIsr, ht]
  | txByte x u hp hl hu ht => simp [Machine.isrStep, hp, isrTxFill, txff, hl, hu, ht]
  | txNone x u hp hl hu ht => simp [Machine.isrStep, hp, isrTxFill, txff, hl, hu, ht]
  | txMask hp ht => simp [Machine.isrStep, hp, isrTxMask, devClearMask, returnFromIsr, State.setPh, ht]

/-- Settles O16: IRQ.ARM is Dev.SetMask of its source, and its answer. -/
theorem armSetsTheEnableBit : Obligations.ArmSetsTheEnableBit :=
  fun _ => ⟨rfl, rfl⟩

/-- Settles O28: IRQ is the OR of the two masked pending bits, and the step is Entry. -/
theorem entryLatchesTheStatus : Obligations.EntryLatchesTheStatus :=
  fun _ hp hi => (IsrMove.entry hp hi rfl).isrStep

/-! ### What a primitive leaves, field by field -/

section
variable {s u : State} (h : RingsOnly s u)
include h

theorem RingsOnly.ph : u.ph = s.ph := by
  obtain ⟨hph, _⟩ := h.seq
  exact hph

theorem RingsOnly.itmp : u.itmp = s.itmp := by
  obtain ⟨_, _, _, hitmp⟩ := h.seq
  exact hitmp

theorem RingsOnly.rxf : u.rxf = s.rxf := by
  obtain ⟨hrxf, _⟩ := h.fifosSame
  exact hrxf

theorem RingsOnly.txf : u.txf = s.txf := by
  obtain ⟨_, htxf, _⟩ := h.fifosSame
  exact htxf

/-- The primitives touch no device bit. -/
theorem RingsOnly.deviceBits : u.rxie = s.rxie ∧ u.txie = s.txie ∧ u.pRx = s.pRx ∧ u.pTx = s.pTx := by
  obtain ⟨hrxie, htxie, hpRx, hpTx, _⟩ := h.env
  exact ⟨hrxie, htxie, hpRx, hpTx⟩

end

/-! ### The phases -/

/-- Settles O27: the successor of each way a step can go. -/
theorem phaseGraph : Obligations.PhaseGraph := by
  intro s t h
  cases isrStep_cases h with
  | entry hp hi ht =>
    have hserved : statusRx s = false → statusTx s = true := fun hrx => by simpa [irq, hrx] using hi
    subst ht
    simp only [hp]
    exact ⟨fun _ => rfl, fun _ => hserved, fun hno => nomatch hi.symm.trans hno⟩
  | wait hp hi ht => simp [hp, hi, ht]
  | rxByte v rest u hp hx hu ht => simp [hp, hx, ht, (push_ringsOnly hu).rxf]
  | rxDone hp hx ht => simp [hp, hx, ht]
  | txFull hp hl ht => simp [hp, hl, ht]
  | txByte x u hp hl hu ht =>
    obtain ⟨hdata, hbyte, _⟩ := readByte_true hu
    rw [State.ring_tx] at hdata hbyte
    simp [hp, hl, hdata, hbyte, ht, (readByte_ringsOnly hu).txf]
  | txNone x u hp hl hu ht =>
    obtain ⟨hempty, _⟩ := readByte_false hu
    rw [State.ring_tx] at hempty
    simp [hp, hl, hempty, ht]
  | rxAck hp ht | rxDelim _ hp _ ht | txAck hp ht | txEmpty hp ht | txMask hp ht => simp [hp, ht]

/-! ### The two halves, phase by phase -/

theorem State.setPh_eq_self {s : State} {ph : Phase} (h : s.ph = ph) : s.setPh ph = s := by
  subst h
  rfl

/-- RX_DRAIN with a byte in RXF is a Push of that byte, and the phase stays (R113). -/
theorem isrStep_rxByte {s u : State} {v : Byte} {rest : List Byte} (hp : s.ph = .rxDrain)
    (hx : s.rxf = v :: rest) (hu : push .rx v { s with rxf := rest } = .ok u) : isrStep s = .next u :=
  (IsrMove.rxByte v rest u hp hx hu (State.setPh_eq_self ((push_ringsOnly hu).ph.trans hp)).symm).isrStep

/-- What a Push leaves in the RX ring, over the numbers (R91, R94). -/
theorem push_rx_effect {s t : State} {v : Byte} (h : push .rx v s = .ok t) :
    t.slot .rx s.rx.wc = v ∧ t.rx.rc = s.rx.rc ∧
      t.rx.wc =
        (if s.rx.wc = s.params.cap - 1 then 0
        else if s.rx.wc + 1 ≠ s.rx.rc then s.rx.wc + 1
        else s.rx.wc) ∧
      ∀ a, a ≠ s.rx.wc → t.slot .rx a = s.slot .rx a :=
  ⟨push_slot h, push_rc h, (push_wc h).trans (Ring.wcAfterReserve_eq _ _),
    fun _ ha => push_slot_other h (.inr ha)⟩

/-- Settles O29: RX_DRAIN with data and RX_DELIM are each one Push, which answers as WC is in range. -/
theorem rxPhases : Obligations.RxPhases := by
  intro s hs
  refine ⟨fun hp => (IsrMove.rxAck hp rfl).isrStep, fun v rest hp hx => ?_,
    fun hp hx => (IsrMove.rxDone hp hx rfl).isrStep, fun hp => ?_⟩
  · have hpop : ringWf { s with rxf := rest } .rx := hs
    obtain ⟨t, hpush⟩ := exists_push_of_ringWf hpop v
    obtain ⟨hslot, hrc, hwc, hother⟩ := push_rx_effect hpush
    have hk := push_ringsOnly hpush
    exact ⟨t, isrStep_rxByte hp hx hpush, hpush, hslot, hk.ph.trans hp, hk.rxf, hrc, hwc, hother⟩
  · obtain ⟨t, hpush⟩ := exists_push_of_ringWf hs delim
    obtain ⟨hslot, hrc, hwc, hother⟩ := push_rx_effect hpush
    exact ⟨t, hpush, hslot, hrc, hwc, hother, (IsrMove.rxDelim t hp hpush rfl).isrStep⟩

/-- TX_FILL with room on an empty ring goes to TX_MASK, the stale byte in ITMP (R117; entry 5). -/
theorem isrStep_txNone {s : State} (hs : ringWf s .tx) (hp : s.ph = .txFill)
    (hroom : s.txf.length ≠ s.params.txDepth) (hempty : s.tx.rc = s.tx.wc) :
    isrStep s = .next ((s.setItmp (s.slot .tx s.tx.rc)).setPh .txMask) := by
  obtain ⟨hrc, _⟩ := hs
  have hread := readByte_empty hrc ((Ring.isEmpty_iff _).mpr hempty)
  exact (IsrMove.txNone _ _ hp hroom hread rfl).isrStep

/-- Settles O30: Read takes the byte at RC and clears its slot, or changes nothing. -/
theorem txPhases : Obligations.TxPhases := by
  intro s hs
  refine ⟨fun hp => (IsrMove.txAck hp rfl).isrStep, fun hp => (IsrMove.txEmpty hp rfl).isrStep,
    fun hp hl => (IsrMove.txFull hp hl rfl).isrStep, fun hp hl he => isrStep_txNone hs hp hl he,
    fun hp hl hdata => ?_, fun hp => (IsrMove.txMask hp rfl).isrStep⟩
  obtain ⟨hrc, _⟩ := hs
  have hread := readByte_data (b := .tx) (s := s) hrc (by simpa [Ring.isEmpty] using hdata)
  obtain ⟨_, _, hrc', hwc', hslot, hother⟩ := readByte_true hread
  have htxf := (readByte_ringsOnly hread).txf
  exact ⟨_, (IsrMove.txByte _ _ hp hl hread rfl).isrStep, rfl, rfl, congrArg (· ++ _) htxf, hslot, hrc',
    hwc', hother⟩

/-! ### What the sequencer leaves alone -/

/-- Settles O31: Push and Read touch rings only, and no other step writes the port or the task's state. -/
theorem isrLeavesThePortAndTheTask : Obligations.IsrLeavesThePortAndTheTask := by
  intro s t h
  have hmodel := isrStep_modelSame h
  cases isrStep_cases h with
  | rxByte v rest u _ _ hu ht | rxDelim u _ hu ht =>
    have hk := push_ringsOnly hu
    exact ht ▸ ⟨hk.resp, hk.fault, hk.task, ht ▸ hmodel⟩
  | txByte x u _ _ hu ht | txNone x u _ _ hu ht =>
    have hk := readByte_ringsOnly hu
    exact ht ▸ ⟨hk.resp, hk.fault, hk.task, ht ▸ hmodel⟩
  | entry _ _ ht | wait _ _ ht | rxAck _ ht | rxDone _ _ ht | txAck _ ht | txEmpty _ ht | txFull _ _ ht
  | txMask _ ht => exact ⟨ht ▸ rfl, ht ▸ ⟨rfl, rfl⟩, ht ▸ ⟨rfl, rfl⟩, hmodel⟩

/-- Settles O32: the phase of each way a step can go decides the bits it writes. -/
theorem isrWritesExactlyTheseDeviceBits : Obligations.IsrWritesExactlyTheseDeviceBits := by
  intro s t h
  cases isrStep_cases h with
  | rxByte v rest u hp hx hu ht =>
    obtain ⟨_, _, _, _, hrxf, htxf, hin, hout⟩ := (push_ringsOnly hu).env
    obtain ⟨hrxie, htxie, hpRx, hpTx⟩ := (push_ringsOnly hu).deviceBits
    simp [ht, hp, hx, hrxie, htxie, hpRx, hpTx, hrxf, htxf, hin, hout]
  | rxDelim u hp hu ht =>
    obtain ⟨hrxie, htxie, hpRx, hpTx, hrxf, htxf, hin, hout⟩ := (push_ringsOnly hu).env
    simp [ht, hp, hrxie, htxie, hpRx, hpTx, hrxf, htxf, hin, hout]
  | txByte x u hp _ hu ht | txNone x u hp _ hu ht =>
    obtain ⟨hrxie, htxie, hpRx, hpTx, hrxf, htxf, hin, hout⟩ := (readByte_ringsOnly hu).env
    simp [ht, hp, hrxie, htxie, hpRx, hpTx, hrxf, htxf, hin, hout]
  | rxDone hp hx ht => simp [ht, hp, hx]
  | entry hp _ ht | wait hp _ ht | rxAck hp ht | txAck hp ht | txEmpty hp ht | txFull hp _ ht
  | txMask hp ht => simp [ht, hp, takeInterrupt]

/-! ### TXIE and TX_MASK -/

/-- Settles O34: the only way that clears TXIE starts in TX_MASK, and the only one that ends there is the
empty Read of TX_FILL. -/
theorem txieClearedOnlyAfterAnEmptyRead : Obligations.TxieClearedOnlyAfterAnEmptyRead := by
  intro s t h
  obtain ⟨_, _, _, _, _, htxie, _⟩ := isrWritesExactlyTheseDeviceBits s t h
  refine ⟨fun hset => by simp [htxie, hset], ?_⟩
  cases isrStep_cases h with
  | entry hp hi ht => cases hrx : statusRx s <;> simp [ht, hp, takeInterrupt, devReadStatus, hrx]
  | txByte x u hp _ hu ht =>
    obtain ⟨hdata, _⟩ := readByte_true hu
    simpa [ht, Ring.isEmpty] using fun _ _ => hdata
  | txNone x u hp hl hu ht =>
    obtain ⟨hempty, _⟩ := readByte_false hu
    simpa [ht, hp, hl, Ring.isEmpty] using hempty
  | rxDelim u hp hu ht => cases hl : s.latTx <;> simp [ht, hp, hl]
  | txEmpty hp ht => by_cases he : s.txf = [] <;> simp [ht, hp, he]
  | txFull hp hl ht => simp [ht, hl]
  | wait hp _ ht | rxAck hp ht | rxByte _ _ _ hp _ _ ht | rxDone hp _ ht | txAck hp ht | txMask hp ht =>
    simp [ht, hp]

/-! ### The independence of the two halves -/

/-- The RX half's own state is the same (R124). -/
def rxHalfSame (s t : State) : Prop :=
  t.pRx = s.pRx ∧ t.rxf = s.rxf ∧ t.rx = s.rx

/-- The TX half's own state is the same (R124). -/
def txHalfSame (s t : State) : Prop :=
  t.pTx = s.pTx ∧ t.txf = s.txf ∧ t.txie = s.txie ∧ t.tx = s.tx ∧ t.itmp = s.itmp

theorem RingsOnly.rxHalfSame {s u : State} (h : RingsOnly s u) (hr : u.rx = s.rx) : rxHalfSame s u := by
  obtain ⟨_, _, hpRx, _⟩ := h.deviceBits
  exact ⟨hpRx, h.rxf, hr⟩

theorem RingsOnly.txHalfSame {s u : State} (h : RingsOnly s u) (hr : u.tx = s.tx) : txHalfSame s u := by
  obtain ⟨_, htxie, _, hpTx⟩ := h.deviceBits
  exact ⟨hpTx, h.txf, htxie, hr, h.itmp⟩

theorem IsrMove.txHalfSame {s t : State} (h : IsrMove s t)
    (hph : s.ph ∈ [Phase.rxAck, .rxDrain, .rxDelim]) : txHalfSame s t := by
  cases h with
  | rxAck _ ht | rxDone _ _ ht => exact ht ▸ ⟨rfl, rfl, rfl, rfl, rfl⟩
  | rxByte v rest u _ _ hu ht | rxDelim u _ hu ht =>
    exact ht ▸ (push_ringsOnly hu).txHalfSame (push_rx_tx hu)
  | entry hp | wait hp | txAck hp | txEmpty hp | txFull hp | txByte _ _ hp | txNone _ _ hp | txMask hp =>
    simp [hp] at hph

theorem IsrMove.rxHalfSame {s t : State} (h : IsrMove s t)
    (hph : s.ph ∈ [Phase.txAck, .txEmpty, .txFill, .txMask]) : rxHalfSame s t := by
  cases h with
  | txAck _ ht | txEmpty _ ht | txFull _ _ ht | txMask _ ht => exact ht ▸ ⟨rfl, rfl, rfl⟩
  | txByte x u _ _ hu ht | txNone x u _ _ hu ht =>
    exact ht ▸ (readByte_ringsOnly hu).rxHalfSame (readByte_tx_rx hu)
  | entry hp | wait hp | rxAck hp | rxByte _ _ _ hp | rxDone hp | rxDelim _ hp => simp [hp] at hph

section
variable {s u t : State} (hparams : u.params = s.params) (hreset : u.resetNo = s.resetNo)
include hparams hreset

/-- Push to RX on two states that agree on the RX half leaves them agreeing on it. -/
theorem push_congr_rxHalf {v : Byte} (h : push .rx v s = .ok t) (hsame : rxHalfSame s u) :
    ∃ w, push .rx v u = .ok w ∧ rxHalfSame t w := by
  obtain ⟨hpRx, hrxf, hrx⟩ := hsame
  obtain ⟨w, hw, hring⟩ := push_congr h hparams hreset hrx
  obtain ⟨_, _, hpRxt, _⟩ := (push_ringsOnly h).deviceBits
  obtain ⟨_, _, hpRxw, _⟩ := (push_ringsOnly hw).deviceBits
  have hrxf' : w.rxf = t.rxf := by rw [(push_ringsOnly hw).rxf, hrxf, (push_ringsOnly h).rxf]
  exact ⟨w, hw, by rw [hpRxw, hpRx, hpRxt], hrxf', hring⟩

/-- Read of TX on two states that agree on the TX half answers the same and leaves them agreeing on it. -/
theorem readByte_congr_txHalf {y : Bool} {x : Byte} (h : readByte .tx s = .ok (y, x, t))
    (hsame : txHalfSame s u) : ∃ w, readByte .tx u = .ok (y, x, w) ∧ txHalfSame t w := by
  obtain ⟨hpTx, htxf, htxie, htx, hitmp⟩ := hsame
  obtain ⟨w, hw, hring⟩ := readByte_congr h hparams hreset htx
  have ht := readByte_ringsOnly h
  have hk := readByte_ringsOnly hw
  obtain ⟨_, htxiet, _, hpTxt⟩ := ht.deviceBits
  obtain ⟨_, htxiew, _, hpTxw⟩ := hk.deviceBits
  exact ⟨w, hw, by rw [hpTxw, hpTx, hpTxt], by rw [hk.txf, htxf, ht.txf], by rw [htxiew, htxie, htxiet],
    hring, by rw [hk.itmp, hitmp, ht.itmp]⟩

variable (hph : u.ph = s.ph)
include hph

/-- An RX phase's step reads the RX half's own state, the parameters, PH and LAT_TX only. -/
theorem IsrMove.congr_rxHalf (h : IsrMove s t) (hlat : u.latTx = s.latTx)
    (hmem : s.ph ∈ [Phase.rxAck, .rxDrain, .rxDelim]) (hsame : Machine.rxHalfSame s u) :
    ∃ v, IsrMove u v ∧ Machine.rxHalfSame t v ∧ v.ph = t.ph := by
  have ⟨hpRx, hrxf, hrx⟩ := hsame
  cases h with
  | rxAck hp ht => exact ⟨_, .rxAck (hph.trans hp) rfl, ht ▸ ⟨rfl, hrxf, hrx⟩, ht ▸ rfl⟩
  | rxByte v rest w hp hx hw ht =>
    obtain ⟨w', hw', hsame'⟩ := push_congr_rxHalf (s := { s with rxf := rest })
      (u := { u with rxf := rest }) hparams hreset hw ⟨hpRx, rfl, hrx⟩
    exact ⟨_, .rxByte v rest w' (hph.trans hp) (hrxf.trans hx) hw' rfl, ht ▸ hsame', ht ▸ rfl⟩
  | rxDone hp hx ht => exact ⟨_, .rxDone (hph.trans hp) (hrxf.trans hx) rfl, ht ▸ hsame, ht ▸ rfl⟩
  | rxDelim w hp hw ht =>
    obtain ⟨w', hw', hsame'⟩ := push_congr_rxHalf hparams hreset hw hsame
    exact ⟨_, .rxDelim w' (hph.trans hp) hw' rfl, ht ▸ hsame', by rw [ht, hlat]; rfl⟩
  | entry hp | wait hp | txAck hp | txEmpty hp | txFull hp | txByte _ _ hp | txNone _ _ hp | txMask hp =>
    simp [hp] at hmem

/-- A TX phase's step reads the TX half's own state, the parameters and PH only. -/
theorem IsrMove.congr_txHalf (h : IsrMove s t) (hmem : s.ph ∈ [Phase.txAck, .txEmpty, .txFill, .txMask])
    (hsame : Machine.txHalfSame s u) : ∃ v, IsrMove u v ∧ Machine.txHalfSame t v ∧ v.ph = t.ph := by
  have ⟨hpTx, htxf, htxie, htx, hitmp⟩ := hsame
  have hfull : u.txf.length = u.params.txDepth ↔ s.txf.length = s.params.txDepth := by rw [htxf, hparams]
  cases h with
  | txAck hp ht => exact ⟨_, .txAck (hph.trans hp) rfl, ht ▸ ⟨rfl, htxf, htxie, htx, hitmp⟩, ht ▸ rfl⟩
  | txEmpty hp ht => exact ⟨_, .txEmpty (hph.trans hp) rfl, ht ▸ hsame, by rw [ht, htxf]; rfl⟩
  | txFull hp hl ht => exact ⟨_, .txFull (hph.trans hp) (hfull.mpr hl) rfl, ht ▸ hsame, ht ▸ rfl⟩
  | txByte x w hp hl hw ht =>
    obtain ⟨w', hw', hpTx', htxf', htxie', htx', _⟩ := readByte_congr_txHalf hparams hreset hw hsame
    exact ⟨_, .txByte x w' (hph.trans hp) (hfull.not.mpr hl) hw' rfl,
      ht ▸ ⟨hpTx', congrArg (· ++ [x]) htxf', htxie', htx', rfl⟩, ht ▸ rfl⟩
  | txNone x w hp hl hw ht =>
    obtain ⟨w', hw', hpTx', htxf', htxie', htx', _⟩ := readByte_congr_txHalf hparams hreset hw hsame
    exact ⟨_, .txNone x w' (hph.trans hp) (hfull.not.mpr hl) hw' rfl,
      ht ▸ ⟨hpTx', htxf', htxie', htx', rfl⟩, ht ▸ rfl⟩
  | txMask hp ht => exact ⟨_, .txMask (hph.trans hp) rfl, ht ▸ ⟨hpTx, htxf, rfl, htx, hitmp⟩, ht ▸ rfl⟩
  | entry hp | wait hp | rxAck hp | rxByte _ _ _ hp | rxDone hp | rxDelim _ hp => simp [hp] at hmem

end

/-- Settles O33: Push and Read depend on their own ring alone, and leave the other. -/
theorem halvesAreIndependent : Obligations.HalvesAreIndependent := by
  intro s u t h hparams hreset hph _ hlatTx
  have hmove := isrStep_cases h
  refine ⟨fun hp => ⟨hmove.txHalfSame hp, fun hpRx hrxf hrx => ?_⟩,
    fun hp => ⟨hmove.rxHalfSame hp, fun hpTx htxf htxie htx hitmp => ?_⟩⟩
  · obtain ⟨v, hv, ⟨hpRx', hrxf', hrx'⟩, hph'⟩ :=
      hmove.congr_rxHalf hparams hreset hph hlatTx hp ⟨hpRx, hrxf, hrx⟩
    exact ⟨v, hv.isrStep, hpRx', hrxf', hrx', hph'⟩
  · obtain ⟨v, hv, ⟨hpTx', htxf', htxie', htx', hitmp'⟩, hph'⟩ :=
      hmove.congr_txHalf hparams hreset hph hp ⟨hpTx, htxf, htxie, htx, hitmp⟩
    exact ⟨v, hv.isrStep, hpTx', htxf', htxie', htx', hitmp', hph'⟩

/-! ### TX_FILL ends -/

theorem taskStep_of_not_idle {s : State} (h : s.ph ≠ .idle) : taskStep s = .next s :=
  taskStep_of_disabled (by simp [enabled, h])

/-- A move that stays in TX_FILL takes one byte off the visible ones when it is the sequencer's, and none
otherwise (R117, R123). -/
theorem visible_of_stay_txFill {a : Agent} {s t : State} (hi : s.Inv) (hp : s.ph = .txFill)
    (ha : a ≠ .platformReset) (h : agentStep a s = .next t) (hstay : t.ph = .txFill) :
    (s.ring .tx).visible s.params = (t.ring .tx).visible t.params + if a = .isr then 1 else 0 := by
  cases a with
  | task =>
    have hwait : agentStep .task s = .next s := taskStep_of_not_idle (by simp [hp])
    cases hwait.symm.trans h
    rfl
  | isr =>
    cases isrStep_cases h with
    | txByte x u _ _ hu ht =>
      obtain ⟨hdata, _, hrc, hwc, _⟩ := readByte_true hu
      have hparams : t.params = s.params := agentStep_params h
      rw [hparams, if_pos rfl]
      subst ht
      obtain ⟨hcap, _⟩ := hi.params
      exact Ring.visible_of_rc_succ hcap (hi.rc_le_last .tx) (hi.wc_le_last .tx) hdata hrc hwc
    | txFull _ _ ht | txNone _ _ _ _ _ ht => simp [ht] at hstay
    | entry hq | wait hq | rxAck hq | rxByte _ _ _ hq | rxDone hq | rxDelim _ hq | txAck hq | txEmpty hq
    | txMask hq => cases hp.symm.trans hq
  | device d =>
    obtain ⟨⟨hparams, _⟩, _, _, _, _, _, htx⟩ := deviceStep_frame h
    simp [hparams, htx]
  | platformReset => exact absurd rfl ha

/-- Settles O35: each move of the sequencer that stays takes a visible byte, and no other move adds one. -/
theorem txFillEndsWithinVisiblePlusOne : Obligations.TxFillEndsWithinVisiblePlusOne := by
  intro s moves t hi hp hreset hcount hrun
  induction moves generalizing s with
  | nil => simp at hcount
  | cons a rest ih =>
    obtain ⟨u, hstep, hrest⟩ := runMoves_cons_eq_next.mp hrun
    obtain ⟨ha, hreset'⟩ := List.ne_and_not_mem_of_not_mem_cons hreset
    by_cases hstay : u.ph = .txFill
    · have hvisible := visible_of_stay_txFill hi hp ha.symm hstep hstay
      have hcount' : (u.ring .tx).visible u.params + 1 ≤ rest.count .isr := by
        simp only [List.count_cons, hvisible, beq_iff_eq] at hcount
        omega
      obtain ⟨k, w, hk, hw, hleft⟩ := ih u (agentStep_inv hi hstep) hstay hreset' hcount' hrest
      exact ⟨k + 1, w, Nat.succ_le_succ hk, by rw [List.take_succ_cons, runMoves_cons hstep, hw], hleft⟩
    · exact ⟨1, u, by simp, by simp [runMoves_cons hstep], hstay⟩

/-! ### Undisturbed runs of the sequencer -/

theorem runMoves_isr_succ {s t : State} (h : isrStep s = .next t) (n : Nat) :
    runMoves (List.replicate (n + 1) .isr) s = runMoves (List.replicate n .isr) t :=
  runMoves_cons h

/-- Push neither reads nor writes PH and RXF. -/
theorem push_of_ph_rxf {b : Buf} {v : Byte} {s t : State} (h : push b v s = .ok t) (ph : Phase)
    (l : List Byte) : push b v { s with ph := ph, rxf := l } = .ok { t with ph := ph, rxf := l } := by
  obtain ⟨hwc, rfl⟩ := push_eq_ok.mp h
  cases b <;> exact push_ok hwc

/-- From RX_DRAIN on, the sequencer pushes the bytes of RXF and then the delimiter (R113, R114). The Pushes
do not read PH, so `ph` may be any phase. -/
theorem runMoves_of_rxDrain {l : List Byte} {s : State} (hs : ringWf s .rx) (hp : s.ph = .rxDrain)
    (hx : s.rxf = l) (ph : Phase) :
    ∃ t, pushAll .rx (l ++ [delim]) { s with ph := ph, rxf := [] } = .ok t ∧
      runMoves (List.replicate (l.length + 2) .isr) s =
        .next (t.setPh (if s.latTx then .txAck else .idle)) := by
  induction l generalizing s with
  | nil =>
    have hdelim : ringWf (s.setPh .rxDelim) .rx := hs
    obtain ⟨u, hpush⟩ := exists_push_of_ringWf hdelim delim
    have hrxf : u.rxf = [] := (push_ringsOnly hpush).rxf.trans hx
    have hfinal : u.setPh (if s.latTx then .txAck else .idle) =
        ({ u with ph := ph, rxf := [] } : State).setPh (if s.latTx then .txAck else .idle) := by
      simp [State.setPh, hrxf]
    refine ⟨_, pushAll_cons (push_of_ph_rxf hpush ph []) [], ?_⟩
    calc runMoves (List.replicate 2 .isr) s
        = runMoves (List.replicate 1 .isr) (s.setPh .rxDelim) :=
          runMoves_isr_succ (IsrMove.rxDone hp hx rfl).isrStep 1
      _ = .next (u.setPh (if s.latTx then .txAck else .idle)) :=
          runMoves_isr_succ (IsrMove.rxDelim u rfl hpush rfl).isrStep 0
      _ = _ := congrArg _ hfinal
  | cons v rest ih =>
    have hpop : ringWf { s with rxf := rest } .rx := hs
    obtain ⟨u, hpush⟩ := exists_push_of_ringWf hpop v
    have hk := push_ringsOnly hpush
    obtain ⟨t, hall, hrun⟩ := ih (push_ringWf hpop hpop hpush) (hk.ph.trans hp) hk.rxf
    rw [hk.latTx] at hrun
    exact ⟨t, (pushAll_cons (push_of_ph_rxf hpush ph []) _).trans hall,
      (runMoves_isr_succ (isrStep_rxByte hp hx hpush) _).trans hrun⟩

/-- Entry with the RX source pending and enabled, and then RX_ACK (R111, R112). -/
theorem runMoves_of_entry_rx {s : State} (hp : s.ph = .idle) (hpRx : s.pRx = true) (hrxie : s.rxie = true)
    (n : Nat) :
    runMoves (List.replicate (n + 2) .isr) s =
      runMoves (List.replicate n .isr)
        { s with pRx := false, latRx := true, latTx := s.pTx && s.txie, ph := .rxDrain } := by
  have hrx : (s.pRx && s.rxie) = true := by simp [hpRx, hrxie]
  have hentry := entryLatchesTheStatus s hp (by simp [hrx])
  rw [hrx, if_pos rfl] at hentry
  exact (runMoves_isr_succ hentry (n + 1)).trans (runMoves_isr_succ (IsrMove.rxAck rfl rfl).isrStep n)

/-- Settles O36: Entry and RX_ACK lead to RX_DRAIN, from where each byte is one move, and so are the end of
the draining and the delimiter. -/
theorem rxInvocationAppendsOneDelimiter : Obligations.RxInvocationAppendsOneDelimiter := by
  refine ⟨fun s hi hp hpRx hrxie => ?_, fun s hi hp => ?_⟩
  · obtain ⟨t, hall, hrun⟩ := runMoves_of_rxDrain
      (s := { s with pRx := false, latRx := true, latTx := s.pTx && s.txie, ph := .rxDrain })
      (hi.rings .rx) rfl rfl s.ph
    exact ⟨t, hall, (runMoves_of_entry_rx hp hpRx hrxie _).trans hrun⟩
  · exact runMoves_of_rxDrain (hi.rings .rx) hp rfl s.ph

/-- A fill with room in TXF for the visible bytes and one more sends them all, and the empty Read after
them leads to TX_MASK (R117, R118). -/
theorem runMoves_of_txFill {l : List Byte} {s : State} (hcap : 2 ≤ s.params.cap) (hs : ringWf s .tx)
    (hp : s.ph = .txFill) (hl : visibleBytes .tx s = l)
    (hroom : s.txf.length + l.length + 1 ≤ s.params.txDepth) :
    ∃ t, runMoves (List.replicate (l.length + 2) .isr) s = .next t ∧ t.txf = s.txf ++ l ∧
      t.txie = false ∧ t.ph = .idle ∧ t.tx.rc = s.tx.wc ∧ t.tx.wc = s.tx.wc := by
  induction l generalizing s with
  | nil =>
    have hnotFull : s.txf.length ≠ s.params.txDepth := by omega
    have hempty : s.tx.rc = s.tx.wc :=
      (Ring.isEmpty_iff _).mp ((visibleBytes_eq_nil_iff hcap hs).mp hl)
    refine ⟨_, (runMoves_isr_succ (isrStep_txNone hs hp hnotFull hempty) 1).trans
      (runMoves_isr_succ (IsrMove.txMask rfl rfl).isrStep 0), (List.append_nil _).symm, rfl, rfl, hempty, rfl⟩
  | cons x rest ih =>
    have hnotFull : s.txf.length ≠ s.params.txDepth := by omega
    obtain ⟨u, hread, hrest⟩ := readByte_of_visibleBytes_eq_cons hcap hs hl
    have hstep := (IsrMove.txByte x u hp hnotFull hread rfl).isrStep
    have hrun := RingRun.readByte hs hread
    have htxf : u.txf = s.txf := (readByte_ringsOnly hread).txf
    have hroom' : (u.txf ++ [x]).length + rest.length + 1 ≤ u.params.txDepth := by
      rw [htxf, hrun.params, List.length_append, List.length_singleton]
      rw [List.length_cons] at hroom
      omega
    obtain ⟨t, ht, htxf', htxie, hph, hrc, hwc⟩ := ih
      (s := (devPushTx x (u.setItmp x)).setPh .txFill) (hrun.two_le_cap hcap) hrun.wf rfl hrest hroom'
    have hwcu : u.tx.wc = s.tx.wc := readByte_wc hread
    exact ⟨t, (runMoves_isr_succ hstep _).trans ht, by simp [htxf', htxf], htxie, hph, hrc.trans hwcu,
      hwc.trans hwcu⟩

/-- Settles O37: Visible is the number of the visible bytes. -/
theorem txFillDrainsTheRing : Obligations.TxFillDrainsTheRing := by
  intro s hi hp hroom
  obtain ⟨hcap, _⟩ := hi.params
  rw [← length_visibleBytes] at hroom ⊢
  exact runMoves_of_txFill hcap (hi.rings .tx) hp rfl hroom

end Sys2Proof.Machine

/-! ## Proofs of the exception statements (60_exceptions)

What a command that is turned away does, that a recorded fault stays, who sets and clears the enable bits,
the steps of the device, and that an interrupt line that stays asserted is served. -/

namespace Sys2Proof.Machine

/-! ### Raising a fault -/

/-- A command that the port turns away records the fault the port raises for it (R130). -/
theorem exec_of_portFault {i : Instr} {s : State} {c : FaultCode} (h : portFault s.params i = some c) :
    exec i s = .next (raiseFault c (encode i) s) := by
  cases i with
  | resv b | push b _ | read b =>
    cases b <;> cases h
    rfl
  | stor b slot v =>
    cases b with
    | rx => cases h; rfl
    | tx =>
      obtain ⟨hslot, hc⟩ := Option.ite_none_right_eq_some.mp h
      cases hc
      simp [exec, execStor, hslot]
  | arm src => cases h

/-- A word subject to a fault records that fault: an illegal word by its decoding, a legal one by its
command's checks (30_encoding R77). -/
theorem execute_of_commandFault {w : Word} {s : State} {c : FaultCode}
    (h : commandFault s.params w = some c) : execute w s = .next (raiseFault c w s) := by
  cases hd : decode w with
  | error e =>
    cases (commandFault_of_decode_error hd).symm.trans h
    exact execute_of_decode_error hd s
  | ok i =>
    obtain rfl := encode_of_decode hd
    rw [commandFault_encode] at h
    rw [execute_of_decode_ok hd, exec_of_portFault h]

/-- Settles O10: each of the forms is one that the port turns away. -/
theorem ownershipAndSlotChecks : Obligations.OwnershipAndSlotChecks :=
  fun _ _ _ => ⟨exec_of_portFault rfl, exec_of_portFault rfl, exec_of_portFault rfl, exec_of_portFault rfl,
    fun hslot => exec_of_portFault (if_pos hslot)⟩

/-- Settles O8: such a word records its fault, which is written out here; the example's command is
RB.STOR rx, whose owner is checked before its slot. -/
theorem faultingCommandRecordsFirstFaultOnly : Obligations.FaultingCommandRecordsFirstFaultOnly := by
  refine ⟨fun w s c h => ?_, fun p _ => ?_⟩
  · rw [execute_of_commandFault h, raiseFault_eq]
    cases c <;> rfl
  · have hword : 0x20040000#32 = encode (.stor .rx 0x400#16 0#8) := by decide
    rw [hword, commandFault_encode]
    rfl

/-! ### A recorded fault stays -/

theorem CommandMove.faultSame_of_faulted {w : Word} {s t : State} (h : CommandMove w s t) (hf : faulted s) :
    Machine.faultSame s t := by
  cases h with
  | fault c _ ht => exact ht ▸ raiseFault_faultSame c w hf
  | ring u r hu _ ht => exact ht ▸ hu.only.fault
  | arm src ht =>
    subst ht
    cases src <;> exact ⟨rfl, rfl⟩

theorem TaskMove.faultSame_of_faulted {s t : State} (h : TaskMove s t) (hf : faulted s) : faultSame s t := by
  cases h with
  | own p d ht => exact ht ▸ ⟨rfl, rfl⟩
  | command w p q u hu ht => exact ht ▸ (hu.faultSame_of_faulted hf :)

/-- Only the task's faults and the reset write FAULT and FCMD, and a fault writes them once (R132). -/
theorem agentStep_faultSame_of_faulted {a : Agent} {s t : State} (ha : a ≠ .platformReset) (hf : faulted s)
    (h : agentStep a s = .next t) : faultSame s t := by
  cases a with
  | task => exact (taskStep_taskMove h).faultSame_of_faulted hf
  | isr =>
    obtain ⟨_, hfault, _⟩ := isrLeavesThePortAndTheTask s t h
    exact hfault
  | device d =>
    obtain ⟨_, _, hfault, _⟩ := deviceStep_frame h
    exact hfault
  | platformReset => exact absurd rfl ha

/-- Settles O11: a step is a move of the agent named next, which is not the reset. -/
theorem recordedFaultStaysUntilReset : Obligations.RecordedFaultStaysUntilReset := by
  intro s t hf hreset h
  obtain ⟨_, rfl⟩ | ⟨a, rest, hsched, ha⟩ := step_cases h
  · exact ⟨rfl, rfl⟩
  · have hmove : a ≠ .platformReset := fun hp => hreset (by simp [hsched, hp])
    exact (agentStep_faultSame_of_faulted hmove (s := { s with sched := rest }) hf ha :)

/-! ### The enable bits -/

/-- RXIE or TXIE, by its source (10_state R37). -/
def enableBit (src : Buf) (s : State) : Bool :=
  match src with
  | .rx => s.rxie
  | .tx => s.txie

theorem envSame.enableBit {s t : State} (h : envSame s t) (src : Buf) :
    Machine.enableBit src t = Machine.enableBit src s := by
  obtain ⟨hrxie, htxie, _⟩ := h
  cases src with
  | rx => exact hrxie
  | tx => exact htxie

theorem raiseFault_enableBit (c : FaultCode) (w : Word) (s : State) (src : Buf) :
    enableBit src (raiseFault c w s) = enableBit src s := by
  obtain ⟨_, _, henv, _⟩ := raiseFault_frame c w s
  exact henv.enableBit src

/-- IRQ.ARM sets its source's bit and leaves the other (41_isr_multiplexer R120). -/
theorem execArm_enableBit {arm src : Buf} {s t : State} (h : execArm arm s = .next t) :
    enableBit src t = enableBit src s ∨ enableBit src t = true ∧ arm = src := by
  cases h
  cases arm <;> cases src <;> simp [enableBit, devSetMask]

/-- Of the commands only IRQ.ARM of a source writes that source's enable bit, and it sets it. -/
theorem exec_enableBit {i : Instr} {src : Buf} {s t : State} (h : exec i s = .next t) :
    enableBit src t = enableBit src s ∨ enableBit src t = true ∧ i = .arm src := by
  have hring {u : State} {r : Word} (hu : RingsOnly s u) :
      enableBit src (u.setResp r) = enableBit src s := hu.env.enableBit src
  cases i with
  | resv b =>
    obtain ⟨_, rfl⟩ | ⟨_, rfl⟩ := execResv_cases h
    · exact .inl (raiseFault_enableBit _ _ s src)
    · exact .inl (hring (.setRing s .tx _))
  | stor b slot v =>
    obtain ⟨_, rfl⟩ | ⟨_, _, rfl⟩ | ⟨_, u, hu, rfl⟩ := execStor_cases h
    · exact .inl (raiseFault_enableBit _ _ s src)
    · exact .inl (raiseFault_enableBit _ _ s src)
    · exact .inl (hring (store_ringsOnly hu))
  | push b v =>
    obtain ⟨_, rfl⟩ | ⟨_, u, hu, rfl⟩ := execPush_cases h
    · exact .inl (raiseFault_enableBit _ _ s src)
    · exact .inl (hring (push_ringsOnly hu))
  | read b =>
    obtain ⟨_, rfl⟩ | ⟨_, y, x, u, hu, rfl⟩ := execRead_cases h
    · exact .inl (raiseFault_enableBit _ _ s src)
    · exact .inl (hring (readByte_ringsOnly hu))
  | arm b => exact (execArm_enableBit h).imp_right fun ⟨hset, hb⟩ => ⟨hset, congrArg _ hb⟩

theorem execute_enableBit {w : Word} {src : Buf} {s t : State} (h : execute w s = .next t) :
    enableBit src t = enableBit src s ∨ enableBit src t = true ∧ decode w = .ok (.arm src) := by
  obtain ⟨_, _, rfl⟩ | ⟨i, hi, hx⟩ := execute_cases h
  · exact .inl (raiseFault_enableBit _ _ s src)
  · exact (exec_enableBit hx).imp_right fun ⟨hset, harm⟩ => ⟨hset, harm ▸ hi⟩

/-- The word of a command that is no IRQ.ARM leaves the enable bits. -/
theorem execute_encode_enableBit {i : Instr} {src : Buf} {s t : State} (hi : i ≠ .arm src)
    (h : execute (encode i) s = .next t) : enableBit src t = enableBit src s := by
  refine (execute_enableBit h).resolve_right fun ⟨_, hd⟩ => hi ?_
  cases (decode_encode i).symm.trans hd
  rfl

/-- The next item of the task's program writes to CMD a word that decodes to IRQ.ARM of the source: as a
command, or as the word's four bytes at the address of CMD (entry 9). -/
def armsNext (src : Buf) (s : State) : Prop :=
  ∃ w, decode w = .ok (.arm src) ∧
    (s.prog.head? = some (.cmd w) ∨ s.prog.head? = some (.busWrite s.params.blockBase (bytesOfWord w)))

theorem enableBit_withProg (src : Buf) (s : State) (p : List TaskOp) :
    enableBit src { s with prog := p } = enableBit src s := by
  cases src <;> rfl

theorem taskOp_enableBit {op : TaskOp} {ops : List TaskOp} {src : Buf} {s t : State}
    (hprog : s.prog = op :: ops) (h : taskOp op ops s = .next t) :
    enableBit src t = enableBit src s ∨ enableBit src t = true ∧ armsNext src s := by
  have hhead : s.prog.head? = some op := congrArg List.head? hprog
  rw [← enableBit_withProg src s ops]
  cases op with
  | cmd w => exact (execute_enableBit h).imp_right fun ⟨hset, hd⟩ => ⟨hset, w, hd, .inl hhead⟩
  | storAtResp v => exact .inl (execute_encode_enableBit (by simp) h)
  | pollRead n =>
    obtain ⟨u, hu, rfl⟩ := pollStep_cases h
    rw [enableBit_withProg src u, enableBit_withProg src s]
    exact .inl (execute_encode_enableBit (by simp) hu)
  | busRead addr n =>
    obtain ⟨reg, _, _, rfl⟩ := busRead_cases h
    cases src <;> exact .inl rfl
  | busWrite addr bytes =>
    obtain ⟨reg, b0, b1, b2, b3, rfl, hreg, hw⟩ := busWrite_cases h
    cases reg with
    | cmd =>
      obtain rfl : addr = s.params.blockBase := eq_blockBase_add_offset_of_portRegAt hreg
      rw [← bytesOfWord_wordOfBytes b0 b1 b2 b3] at hhead
      exact (execute_enableBit hw).imp_right fun ⟨hset, hd⟩ => ⟨hset, _, hd, .inr hhead⟩
    | resp | fault | fcmd =>
      cases hw
      exact .inl rfl

theorem taskStep_enableBit {src : Buf} {s t : State} (h : taskStep s = .next t) :
    enableBit src t = enableBit src s ∨ enableBit src t = true ∧ s.ph = .idle ∧ armsNext src s := by
  obtain rfl | ⟨op, ops, hph, hprog, hop⟩ := taskStep_cases h
  · exact .inl rfl
  · exact (taskOp_enableBit hprog hop).imp_right fun ⟨hset, harms⟩ => ⟨hset, hph, harms⟩

/-- The sequencer clears TXIE in TX_MASK and writes no other enable bit (41_isr_multiplexer R118). -/
theorem isrStep_enableBit {src : Buf} {s t : State} (h : isrStep s = .next t) :
    enableBit src t = enableBit src s ∨ enableBit src t = false ∧ src = .tx ∧ s.ph = .txMask := by
  obtain ⟨hrxie, _, _, _, _, htxie, _⟩ := isrWritesExactlyTheseDeviceBits s t h
  cases src with
  | rx => exact .inl hrxie
  | tx =>
    by_cases hph : s.ph = .txMask
    · exact .inr ⟨htxie.trans (if_pos hph), rfl, hph⟩
    · exact .inl (htxie.trans (if_neg hph))

theorem deviceStep_enableBit {d : DeviceStep} {src : Buf} {s t : State} (h : deviceStep d s = .next t) :
    enableBit src t = enableBit src s := by
  cases deviceStep_cases h with
  | arrive _ _ _ ht | depart _ _ _ ht | pending _ _ ht => cases src <;> exact ht ▸ rfl

/-- All that a move can do to an enable bit: leave it, set it by a step of the task that arms the source, or
clear TXIE in TX_MASK (R136). -/
theorem agentStep_enableBit {a : Agent} {s t : State} (h : agentStep a s = .next t) (src : Buf) :
    enableBit src t = enableBit src s ∨
      (enableBit src t = true ∧ a = .task ∧ s.ph = .idle ∧ armsNext src s) ∨
      (enableBit src t = false ∧ src = .tx ∧ a = .isr ∧ s.ph = .txMask) := by
  cases a with
  | task =>
    exact (taskStep_enableBit h).imp_right fun ⟨hset, hph, harms⟩ => .inl ⟨hset, rfl, hph, harms⟩
  | isr =>
    exact (isrStep_enableBit h).imp_right fun ⟨hclear, hsrc, hph⟩ => .inr ⟨hclear, hsrc, rfl, hph⟩
  | device d => exact .inl (deviceStep_enableBit h)
  | platformReset =>
    cases h
    cases src <;> exact .inl rfl

theorem armsNext_of_enableBit_set {a : Agent} {s t : State} {src : Buf} (h : agentStep a s = .next t)
    (hs : enableBit src s = false) (ht : enableBit src t = true) :
    a = .task ∧ s.ph = .idle ∧ armsNext src s := by
  obtain hsame | ⟨_, harms⟩ | ⟨hclear, _⟩ := agentStep_enableBit h src
  · simp [hs, ht] at hsame
  · exact harms
  · simp [ht] at hclear

theorem txMask_of_enableBit_clear {a : Agent} {s t : State} {src : Buf} (h : agentStep a s = .next t)
    (hs : enableBit src s = true) (ht : enableBit src t = false) :
    src = .tx ∧ a = .isr ∧ s.ph = .txMask := by
  obtain hsame | ⟨hset, _⟩ | ⟨_, hmask⟩ := agentStep_enableBit h src
  · simp [hs, ht] at hsame
  · simp [ht] at hset
  · exact hmask

/-- Settles O39: an arming step is the only way to set a bit, and TX_MASK the only way to clear one. -/
theorem enableBitsChangeOnlyByArmAndMask : Obligations.EnableBitsChangeOnlyByArmAndMask := by
  intro a s t h
  refine ⟨fun hset => ?_, armsNext_of_enableBit_set (src := .rx) h, fun hs ht => ?_,
    armsNext_of_enableBit_set (src := .tx) h⟩
  · by_contra hclear
    obtain ⟨hsrc, _⟩ := txMask_of_enableBit_clear (src := .rx) h hset (Bool.not_eq_true _ ▸ hclear)
    cases hsrc
  · obtain ⟨_, hmask⟩ := txMask_of_enableBit_clear (src := .tx) h hs ht
    exact hmask

/-! ### The device -/

/-- Settles O42: an arrival checks RXF for room, a departure looks at TXF, and a source is always raised. -/
theorem deviceSteps : Obligations.DeviceSteps :=
  fun _ => ⟨fun _ hroom => if_pos hroom,
    fun _ _ htxf => by simp [agentStep, deviceStep, deviceDepart, htxf], rfl, rfl⟩

/-! ### Entry in a fair run -/

theorem CommandMove.seqSame {w : Word} {s t : State} (h : CommandMove w s t) : Machine.seqSame s t := by
  cases h with
  | fault c _ ht =>
    obtain ⟨_, hseq, _⟩ := raiseFault_frame c w s
    exact ht ▸ hseq
  | ring u r hu _ ht => exact ht ▸ hu.only.seq
  | arm src ht =>
    subst ht
    cases src <;> exact ⟨rfl, rfl, rfl, rfl⟩

theorem TaskMove.seqSame {s t : State} (h : TaskMove s t) : Machine.seqSame s t := by
  cases h with
  | own p d ht => exact ht ▸ ⟨rfl, rfl, rfl, rfl⟩
  | command w p q u hu ht => exact ht ▸ (hu.seqSame :)

/-- Only the sequencer leaves IDLE: the other agents leave PH alone, and a reset ends in IDLE (R110). -/
theorem idle_of_move_ne_isr {a : Agent} {s t : State} (ha : a ≠ .isr) (hph : s.ph = .idle)
    (h : agentStep a s = .next t) : t.ph = .idle := by
  cases a with
  | task =>
    obtain ⟨hsame, _⟩ := (taskStep_taskMove h).seqSame
    exact hsame.trans hph
  | isr => exact absurd rfl ha
  | device d =>
    obtain ⟨_, ⟨hsame, _⟩, _⟩ := deviceStep_frame h
    exact hsame.trans hph
  | platformReset =>
    cases h
    rfl

theorem IsRun.idle_until_isr {move : Nat → Agent} {run : Nat → State} {n m : Nat} (hrun : IsRun move run)
    (hph : (run n).ph = .idle) (hnm : n ≤ m) (hnone : ∀ k, n ≤ k → k < m → move k ≠ .isr) :
    (run m).ph = .idle := by
  induction m, hnm using Nat.le_induction with
  | base => exact hph
  | succ m hm ih =>
    exact idle_of_move_ne_isr (hnone m hm (Nat.lt_succ_self m))
      (ih fun k hk hlt => hnone k hk (Nat.lt_succ_of_lt hlt)) (hrun m)

/-- From IDLE with IRQ = 1 the sequencer's step is Entry, which leaves IDLE (41_isr_multiplexer R111). -/
theorem isrStep_leaves_idle {s t : State} (hph : s.ph = .idle) (hirq : irq s = true)
    (h : isrStep s = .next t) : t.ph ≠ .idle := by
  cases (IsrMove.entry hph hirq rfl).isrStep.symm.trans h
  cases hrx : statusRx s <;> simp [takeInterrupt, devReadStatus, hrx]

/-- Settles O49: the sequencer stays enabled, so it moves, and its first move finds IDLE still. -/
theorem entryIsEventuallyTaken : Obligations.EntryIsEventuallyTaken := by
  intro move run n hrun hfair hph hirq
  have hmoves : ∃ m, n ≤ m ∧ move m = .isr := hfair.isr n fun m hm => by simp [enabled, hirq m hm]
  classical
  obtain ⟨hnm, hisr⟩ := Nat.find_spec hmoves
  have hidle := hrun.idle_until_isr hph hnm fun k hk hlt hmove => Nat.find_min hmoves hlt ⟨hk, hmove⟩
  have hstep := hrun (Nat.find hmoves)
  rw [hisr] at hstep
  exact ⟨_, hnm, hisr, hidle, isrStep_leaves_idle hidle (hirq _ hnm) hstep⟩

end Sys2Proof.Machine

/-! ## Proofs of the reset and hazard statements (70_reset)

The state the machine comes out of reset in, that a quiescent state rests, and what an invocation of the
sequencer between the two words of `rb.send` does. -/

namespace Sys2Proof.Machine

/-! ### The launch state -/

@[simp] theorem State.launch_ring (p : Params) (prog : List TaskOp) (sched : List Agent) (b : Buf) :
    (State.launch p prog sched).ring b = Ring.reset := by
  cases b <;> rfl

theorem cleanLaunch_launch (p : Params) (prog : List TaskOp) (sched : List Agent) :
    cleanLaunch (State.launch p prog sched) :=
  ⟨rfl, rfl, rfl, rfl, rfl, rfl, rfl, rfl, rfl, rfl, rfl, rfl, rfl, rfl, fun b => by
    rw [State.launch_ring]
    exact ⟨rfl, rfl⟩⟩

/-- Settles O52: both rings of a launch state are just reset, and State.reset is the launch state of the
default parameters. -/
theorem launchIsClean : Obligations.LaunchIsClean :=
  ⟨fun p prog sched => ⟨cleanLaunch_launch p prog sched, fun b => by
    rw [State.launch_ring]
    rfl⟩, cleanLaunch_launch Params.default [] [], rfl⟩

/-! ### Quiescent states -/

/-- A quiescent state stays quiescent with fewer moves to come. -/
theorem quiescent.withSched {s : State} {rest : List Agent} (h : quiescent s) (hrest : rest ⊆ s.sched) :
    quiescent { s with sched := rest } := by
  obtain ⟨hph, hirq, hprog, hsched⟩ := h
  exact ⟨hph, hirq, hprog, fun a ha => hsched a (hrest ha)⟩

/-- In a quiescent state neither the task nor the sequencer has a step (R177, 20_memory R59). -/
theorem quiescent.agentStep_eq {s : State} {a : Agent} (h : quiescent s) (hdevice : a.isDevice = false)
    (hreset : a ≠ .platformReset) : agentStep a s = .next s := by
  obtain ⟨hph, hirq, hprog, _⟩ := h
  cases a with
  | task => exact taskStep_of_disabled (by simp [enabled, hprog])
  | isr => exact isrStep_of_disabled (by simp [enabled, hph, hirq])
  | device d => cases hdevice
  | platformReset => exact absurd rfl hreset

/-- Settles O50: the agent named next is the task or the sequencer, and neither has a step. -/
theorem quiescentStatesRest : Obligations.QuiescentStatesRest := by
  intro s h hreset
  refine ⟨?_, h.withSched (List.tail_subset _)⟩
  cases hsched : s.sched with
  | nil =>
    rw [step_of_sched_nil hsched, List.tail_nil, ← hsched]
  | cons a rest =>
    have ⟨_, _, _, hdevice⟩ := h
    have hrest : rest ⊆ s.sched := hsched ▸ List.subset_cons_self a rest
    have ha : a ≠ .platformReset := by simpa [hsched] using hreset
    rw [step_of_sched_cons hsched, List.tail_cons]
    exact (h.withSched hrest).agentStep_eq (hdevice a (by simp [hsched])) ha

/-! ### The reserve/store window -/

section
variable {b : Buf} {s : State} (hp : 2 ≤ s.params.cap) (hs : ringWf s b)
include hp hs

/-- An empty ring has room, at END too (40_ring_buffer R101). -/
theorem room_of_isEmpty (hempty : (s.ring b).isEmpty = true) :
    (s.ring b).visible s.params + 1 < s.params.cap := by
  rw [← length_visibleBytes, (visibleBytes_eq_nil_iff hp hs).mpr hempty]
  exact hp

theorem reserve_wc_of_room (hroom : (s.ring b).visible s.params + 1 < s.params.cap) :
    ((reserve b s).2.ring b).wc = succ s.params (s.ring b).wc := by
  obtain ⟨hrc, hwc, _⟩ := hs
  obtain ⟨hfull, _⟩ := (Ring.visible_add_one_lt_cap_iff hp hrc hwc).mp hroom
  simp [reserve_snd, Ring.wcAfterReserve_of_not_full hfull]

/-- In a ring with room, Reserve makes the old content of the slot it reserves visible, before anything is
stored there (R165). -/
theorem visibleBytes_reserve (hroom : (s.ring b).visible s.params + 1 < s.params.cap) :
    visibleBytes b (reserve b s).2 = visibleBytes b s ++ [s.slot b (s.ring b).wc] := by
  have hwc' := reserve_wc_of_room hp hs hroom
  obtain ⟨hrc, hwc, _⟩ := hs
  have hparams : (reserve b s).2.params = s.params := State.setRing_params s b _
  have hrc' : ((reserve b s).2.ring b).rc = (s.ring b).rc := by simp [reserve_snd]
  have hvisible : ((reserve b s).2.ring b).visible s.params = (s.ring b).visible s.params + 1 := by
    rw [Ring.visible_of_wc_succ hp hrc hwc hrc' hwc', Nat.mod_eq_of_lt hroom]
  simp only [visibleBytes, hparams, hvisible, hrc', slot_reserve, List.range_succ, List.map_append,
    List.map_singleton, Ring.rc_add_visible_mod hp hrc hwc]

end

/-- The state RB.RESV leaves of a task with `ops` after it in its program (40_ring_buffer R96). -/
def State.reserved (s : State) (ops : List TaskOp) : State :=
  (reserve .tx { s with prog := ops }).2.setResp (respOfSlot s.tx.wc)

/-- The task's first step of `rb.send` (30_encoding R79). -/
theorem agentStep_task_rbSend {s : State} {v : Byte} {ops : List TaskOp} (hph : s.ph = .idle)
    (hprog : s.prog = rbSend v ++ ops) : agentStep .task s = .next (s.reserved (.storAtResp v :: ops)) :=
  agentStep_task_cmd (i := .resv .tx) hph hprog

/-- On an empty ring RB.RESV makes the reserved slot's old content the one visible byte (R165). -/
theorem visibleBytes_reserved_of_isEmpty {s : State} (hp : 2 ≤ s.params.cap) (hs : ringWf s .tx)
    (hempty : (s.ring .tx).isEmpty = true) (ops : List TaskOp) :
    visibleBytes .tx (s.reserved ops) = [s.slot .tx s.tx.wc] := calc
  _ = visibleBytes .tx s ++ [s.slot .tx s.tx.wc] :=
    visibleBytes_reserve hp hs (room_of_isEmpty hp hs hempty)
  _ = [s.slot .tx s.tx.wc] := by rw [(visibleBytes_eq_nil_iff hp hs).mpr hempty, List.nil_append]

/-- The task's second step of `rb.send`, while RESP still holds the slot RB.RESV answered with. -/
theorem agentStep_task_storAtResp_slot {s : State} {v : Byte} {ops : List TaskOp} {i : Nat}
    (hph : s.ph = .idle) (hprog : s.prog = .storAtResp v :: ops) (hresp : s.resp = respOfSlot i)
    (hi : i ≤ s.params.last) (hlast : s.params.last < 65536) :
    agentStep .task s = .next (({ s with prog := ops }.writeSlot .tx i v).setResp 0#32) := by
  have hstor := exec_stor_respSlot (s := { s with prog := ops }) v hi hlast
  rw [← hresp] at hstor
  exact (agentStep_task_storAtResp hph hprog).trans hstor

/-- Entry with only the TX source pending and enabled, then TX_ACK, and TX_EMPTY on an empty TXF
(41_isr_multiplexer R111, R115, R116). -/
theorem runMoves_of_entry_tx {s : State} (hp : s.ph = .idle) (hpRx : s.pRx = false) (hpTx : s.pTx = true)
    (htxie : s.txie = true) (htxf : s.txf = []) (n : Nat) :
    runMoves (List.replicate (n + 3) .isr) s =
      runMoves (List.replicate n .isr)
        { s with pTx := false, latRx := false, latTx := true, ph := .txFill } := by
  have hrx : (s.pRx && s.rxie) = false := by simp [hpRx]
  have htx : (s.pTx && s.txie) = true := by simp [hpTx, htxie]
  have hentry := entryLatchesTheStatus s hp (by simp [htx])
  rw [hrx, htx, if_neg Bool.false_ne_true] at hentry
  have hfill := (IsrMove.txEmpty (s := { s with pTx := false, latRx := false, latTx := true, ph := .txEmpty })
    rfl rfl).isrStep
  rw [if_pos htxf] at hfill
  calc runMoves (List.replicate (n + 3) .isr) s
      = runMoves (List.replicate (n + 2) .isr) { s with latRx := false, latTx := true, ph := .txAck } :=
        runMoves_isr_succ hentry (n + 2)
    _ = runMoves (List.replicate (n + 1) .isr)
          { s with pTx := false, latRx := false, latTx := true, ph := .txEmpty } :=
        runMoves_isr_succ (IsrMove.txAck rfl rfl).isrStep (n + 1)
    _ = _ := runMoves_isr_succ hfill n

/-- A run of the sequencer leaves RESP, the task's state and the parameters alone, as each of its steps does
(41_isr_multiplexer R125). -/
theorem runMoves_isr_frame {n : Nat} {s t : State} (h : runMoves (List.replicate n .isr) s = .next t) :
    t.resp = s.resp ∧ taskSame s t ∧ t.params = s.params := by
  induction n generalizing s with
  | zero =>
    cases h
    exact ⟨rfl, ⟨rfl, rfl⟩, rfl⟩
  | succ n ih =>
    obtain ⟨u, hstep, hrest⟩ := runMoves_cons_eq_next.mp h
    obtain ⟨hresp, _, ⟨hprog, hrdata⟩, hparams, _⟩ := isrLeavesThePortAndTheTask s u hstep
    obtain ⟨hresp', ⟨hprog', hrdata'⟩, hparams'⟩ := ih hrest
    exact ⟨hresp'.trans hresp, ⟨hprog'.trans hprog, hrdata'.trans hrdata⟩, hparams'.trans hparams⟩

/-- A whole TX invocation with room in TXF for the visible bytes and one more sends them, masks the source
and leaves the ring empty (R111 to R118). -/
theorem runMoves_of_txInvocation {l : List Byte} {s : State} (hcap : 2 ≤ s.params.cap) (hs : ringWf s .tx)
    (hp : s.ph = .idle) (hpRx : s.pRx = false) (hpTx : s.pTx = true) (htxie : s.txie = true)
    (htxf : s.txf = []) (hl : visibleBytes .tx s = l) (hroom : l.length + 1 ≤ s.params.txDepth) :
    ∃ t, runMoves (List.replicate (l.length + 5) .isr) s = .next t ∧ t.txf = l ∧ t.txie = false ∧
      t.ph = .idle ∧ t.tx.rc = s.tx.wc ∧ t.tx.wc = s.tx.wc := by
  obtain ⟨t, hrun, hsent, hmask, hend⟩ := runMoves_of_txFill
    (s := { s with pTx := false, latRx := false, latTx := true, ph := .txFill }) hcap hs rfl hl
    (by simpa [htxf] using hroom)
  rw [htxf] at hsent
  exact ⟨t, (runMoves_of_entry_tx hp hpRx hpTx htxie htxf _).trans hrun, hsent, hmask, hend⟩

/-- Settles O48: RB.RESV makes the slot's old content the one visible byte, the invocation sends it and
leaves the ring empty with WC past the slot, and the store reaches the slot RESP still names. -/
theorem reserveStoreWindow : Obligations.ReserveStoreWindow := by
  intro s v ops hi hph hprog hempty htxie hpTx hpRx htxf hdepth
  obtain ⟨hcap, hcapMax, _⟩ := hi.params
  have hs := hi.rings .tx
  have hwc : s.tx.wc ≤ s.params.last := hi.wc_le_last .tx
  obtain ⟨t, hrun, hsent, hmask, hidle, hrct, hwct⟩ := runMoves_of_txInvocation
    (s := s.reserved (.storAtResp v :: ops)) hcap (ringWf_reserve hs hs) hph hpRx hpTx htxie htxf
    (visibleBytes_reserved_of_isEmpty hcap hs hempty _) hdepth
  obtain ⟨hresp, ⟨hprogt, _⟩, hparams⟩ := runMoves_isr_frame hrun
  have hlast : t.params.last = s.params.cap - 1 := congrArg Params.last hparams
  have hstor := agentStep_task_storAtResp_slot hidle hprogt hresp (hlast ▸ hwc) (by omega)
  have hempty' : t.tx.isEmpty = true := (Ring.isEmpty_iff _).mpr (hrct.trans hwct.symm)
  have hwc' : t.tx.wc = succ s.params s.tx.wc :=
    hwct.trans (reserve_wc_of_room hcap hs (room_of_isEmpty hcap hs hempty))
  have hmoves : runMoves (.task :: (List.replicate 6 .isr ++ [.task])) s = agentStep .task t :=
    (runMoves_cons (agentStep_task_rbSend hph hprog)).trans
      ((runMoves_append hrun).trans (runMoves_singleton .task t))
  exact ⟨_, hmoves.trans hstor, hsent, hmask, hidle, rfl, by simp, hempty', hwc'⟩

end Sys2Proof.Machine
